-- ==== Sys2Proof/Word.lean ====
section
/-! DEFINITION. The widths of the block: R10 fixes every one, and none is a parameter. -/

namespace Sys2Proof

/-- A half-precision word, IEEE (R39) or alt (R40) according to the flavour it is used in. -/
abbrev Half := BitVec 16

/-- A single-precision word (R38). By R9 its value and its pattern are the same 32 wires. -/
abbrev Single := BitVec 32

/-- A word on the wrapper's data buses `a_in` and `y_out` (R26). -/
abbrev Word := BitVec 32

/-- The operation code bus `op[1:0]` (R26, R45). -/
abbrev OpCode := BitVec 2

/-- The encoding of one program line, `{op[1:0], a_in[31:0]}` (95_test_vectors.md section 3). -/
abbrev LineWord := BitVec 34

end Sys2Proof
end

