-- ==== Sys2Proof/Syntax.lean ====
section
/-! DEFINITION. The operation set: the 2×2 matrix of direction and flavour (R5, R45). No operation has an
immediate, a register operand or a mode field (R44), so no constructor has an argument. The one
operand of each is the data word on the input bus. -/

namespace Sys2Proof

/-- The four operations of R45, one for each row of the opcode table. -/
inductive Instr where
  /-- H2F.IEEE (`op = 00`): IEEE half to single, R58. -/
  | h2fIeee
  /-- H2F.ALT (`op = 01`): alt half to single, R59. -/
  | h2fAlt
  /-- F2H.IEEE (`op = 10`): single to IEEE half, R72. -/
  | f2hIeee
  /-- F2H.ALT (`op = 11`): single to alt half, R73. -/
  | f2hAlt
deriving DecidableEq, Repr

end Sys2Proof
end

