-- ==== Sys2Proof/WellFormed.lean ====
section
/-! DEFINITION. Well-formedness. No operation and no operand is illegal (R47, R48), so every `Instr` is well
formed. What can be ill formed is what a host writes down: a number for the two-bit `op` bus, and a
literal operand of a program line (R50). -/

namespace Sys2Proof

/-- R47, R48: no encoding is reserved or illegal, and no operand is. -/
def Instr.wf : Instr → Bool
  | .h2fIeee => true
  | .h2fAlt => true
  | .f2hIeee => true
  | .f2hAlt => true

/-- The operand width of each operation (R49): 16 bits for H2F and 32 bits for F2H. -/
def Instr.operandBits : Instr → Nat
  | .h2fIeee => 16
  | .h2fAlt => 16
  | .f2hIeee => 32
  | .f2hAlt => 32

/-- A number is a value of the two-bit operation code (R45). -/
def opNumberWf (w : Nat) : Bool := decide (w < 4)

/-- R50: a literal operand has the operation's operand width, 4 hexadecimal digits for H2F and 8 for
F2H. -/
def literalWf (i : Instr) (digits : List (BitVec 4)) : Bool :=
  4 * digits.length == i.operandBits

end Sys2Proof
end

