-- ==== Sys2Proof/Decode.lean ====
section
/-! DEFINITION. The operation code (R45, R46), the line word (95_test_vectors.md section 3), the mnemonics
and DOC's names for the operations (R50, R51). Decoding an operation code rejects nothing: all four
values of `op` are defined (R46, R48). Decoding a mnemonic rejects an unknown one by name. -/

namespace Sys2Proof

/-- R46: the decoder reads `op[1:0]` and selects the row of R45. `op[1]` is the direction (0 widens, 1
narrows) and `op[0]` the flavour (0 is IEEE, 1 is alt). -/
def decodeOp (op : OpCode) : Instr :=
  match op[1], op[0] with
  | false, false => .h2fIeee
  | false, true => .h2fAlt
  | true, false => .f2hIeee
  | true, true => .f2hAlt

/-- The `op` column of R45's table. -/
def encodeOp : Instr → OpCode
  | .h2fIeee => 0b00#2
  | .h2fAlt => 0b01#2
  | .f2hIeee => 0b10#2
  | .f2hAlt => 0b11#2

/-- What reaches the two-bit `op` bus of a number whose bits the opcode table numbers: its low `nbits`
bits are the word, all above are 0, and the bus takes bits 1 and 0 (R26; the table's mask is `0b11`). Log entry 5. -/
def tableWordOp (nbits w : Nat) : OpCode := BitVec.ofNat 2 (w % 2 ^ nbits)

/-- The operation that the decoder reads from a word numbered as the opcode table numbers it. -/
def decodeTableWord (nbits w : Nat) : Option Instr := some (decodeOp (tableWordOp nbits w))

/-- The line word `{op[1:0], a_in[31:0]}` of an operation and its operand. -/
def encodeLine (i : Instr) (a : Word) : LineWord := encodeOp i ++ a

/-- The `op` field of a line word, bits 33 and 32. -/
def lineOp (l : LineWord) : OpCode := l.extractLsb' 32 2

/-- The `a_in` field of a line word, bits 31 to 0. -/
def lineOperand (l : LineWord) : Word := l.extractLsb' 0 32

/-- A line word read back as its operation and its operand. Every one of the 2^34 words is a line. -/
def decodeLine (l : LineWord) : Instr × Word := (decodeOp (lineOp l), lineOperand l)

/-- Why a line's text names no operation. -/
inductive DecodeError where
  /-- Raised by `decodeMnemonic` for a word that is none of R45's mnemonics; safe, nothing runs. -/
  | unknownMnemonic (word : String)
deriving DecidableEq, Repr

/-- The mnemonics of R45. -/
def Instr.mnemonic : Instr → String
  | .h2fIeee => "H2F.IEEE"
  | .h2fAlt => "H2F.ALT"
  | .f2hIeee => "F2H.IEEE"
  | .f2hAlt => "F2H.ALT"

/-- A mnemonic read back (R50); any other word is rejected by name. -/
def decodeMnemonic (word : String) : Except DecodeError Instr :=
  if word = "H2F.IEEE" then .ok .h2fIeee
  else if word = "H2F.ALT" then .ok .h2fAlt
  else if word = "F2H.IEEE" then .ok .f2hIeee
  else if word = "F2H.ALT" then .ok .f2hAlt
  else .error (.unknownMnemonic word)

/-- DOC's names for the operations, the rows of R51's table. -/
inductive DocName where
  /-- `decode16to32(h) -> f32bits` -/
  | decode16to32
  /-- `decode16to32_fp(h) -> f32`, the floating-point-assisted strategy -/
  | decode16to32Fp
  /-- `half_to_single_bits` -/
  | halfToSingleBits
  /-- `half_to_single_value`, the same 32 wires by R9 -/
  | halfToSingleValue
  /-- `encode32to16(x) -> h16bits` -/
  | encode32to16
  /-- `encode32to16_fp(f) -> h16`, the floating-point-assisted strategy -/
  | encode32to16Fp
  /-- `single_value_to_half_bits` -/
  | singleValueToHalfBits
deriving DecidableEq, Repr

/-- R51: the operation each of DOC's names is, in its IEEE (`alt = false`) or alt flavour. The strategy
and the form of the result make no difference (R8, R9). -/
def DocName.instr (n : DocName) (alt : Bool) : Instr :=
  match n with
  | .decode16to32 => if alt then .h2fAlt else .h2fIeee
  | .decode16to32Fp => if alt then .h2fAlt else .h2fIeee
  | .halfToSingleBits => if alt then .h2fAlt else .h2fIeee
  | .halfToSingleValue => if alt then .h2fAlt else .h2fIeee
  | .encode32to16 => if alt then .f2hAlt else .f2hIeee
  | .encode32to16Fp => if alt then .f2hAlt else .f2hIeee
  | .singleValueToHalfBits => if alt then .f2hAlt else .f2hIeee

end Sys2Proof
end

