-- ==== Sys2Proof/Config.lean ====
section
/-! DEFINITION. What the spec leaves open and no rule fixes. None of these constants has a body, so no
proof can use a value of one. The values the spec decides (its D7, D8 and D9) stand in Machine/Operands.lean. -/

namespace Sys2Proof

/-- `T_PD`, the propagation delay from stable inputs to a stable output: OPEN in the spec (R11, R116,
D17; I5). Log entry 7. -/
opaque Config.tPd : Nat

/-- The word found on `y_out` by the n-th sample taken before the output has settled: any value (R117,
I4). Log entry 6. -/
opaque Config.unsettledWord : Nat → Word

/-- `msb_index(0)`, which the spec says is never evaluated and must be given no value (R12, I3, N17).
Log entry 8. -/
opaque Config.msbIndexOfZero : Nat

end Sys2Proof
end

