-- ==== Sys2Proof/Machine/State.lean ====
section
/-! DEFINITION. State. The block holds no register, flag, memory or program counter (R16 to R22). What the
spec gives it is its signals. The host drives the wrapper's inputs and samples the wrapper's output
(R15, R26), and the ports of U1, U2 and U3 are wires on those inputs (Machine/Operands.lean and
Machine/Wrapper.lean compute them). -/

namespace Sys2Proof.Machine

/-- Why the machine stops with a fault: never. R7, R100 and D15 leave the block no fault or trap
outcome, so this type has no constructor, and that is exact (neither safe nor unsafe). -/
inductive Fault where
deriving DecidableEq, Repr

/-- Why an operation has no meaning. -/
inductive Refusal where
  /-- Raised by `exec` alone, for an operation that has no meaning yet; safe. No arm raises it: all four
  operations have their meaning. -/
  | notModelled (mnemonic : String)
deriving DecidableEq, Repr

/-- The wrapper's signals (R26) as plain data. -/
structure State where
  /-- `op[1:0]`, the operation code the host drives. -/
  op : OpCode
  /-- `a_in[31:0]`, the operand the host drives. -/
  aIn : Word
  /-- `y_out[31:0]` as last sampled. The block does not hold it (R27): it is what the host last saw on the
  output. Log entry 2. -/
  yOut : Word
  /-- The MODEL's own counter, no state of the spec: how many samples were taken before the output had
  settled. It selects the free value of the next such sample. Log entry 6. -/
  draws : Nat
deriving DecidableEq, Repr

/-- There is no reset (R112), and the inputs are driven by the host and not reset (R27). The model starts
with every input bit driven 0. `yOut` is then the rule value for those inputs, as R112 says of the
outputs after power-up: H2F.IEEE of +0 is +0 (R61). Log entry 3. -/
def State.reset : State := { op := 0#2, aIn := 0#32, yOut := 0#32, draws := 0 }

end Sys2Proof.Machine
end

