-- ==== Sys2Proof/Machine/Ops.lean ====
section
/-! DEFINITION. The operations on signals and on words that every meaning shares: driving an input, driving
the output (R13), packing fields into a word and widening a word (R12). There is no exception to
take and none to return from (R104, R105), no memory access (R28) and no register access (R16). -/

namespace Sys2Proof.Machine

/-- `y_out <- w`: the result of an operation is written once, as the output of one evaluation (R13). -/
def State.driveOutput (s : State) (w : Word) : State := { s with yOut := w }

/-- The host drives both inputs of the wrapper (R114, R15). The word it last sampled stays what it was. -/
def State.driveInputs (s : State) (op : OpCode) (a : Word) : State := { s with op := op, aIn := a }

/-- `{sign, exponent[7:0], mantissa[22:0]}`, the layout of a single (R38). -/
def packSingle (sign : BitVec 1) (exponent : BitVec 8) (mantissa : BitVec 23) : Single :=
  sign ++ exponent ++ mantissa

/-- `{sign, magnitude[14:0]}`, the layout of a half (R39, R40). -/
def packHalf (sign : BitVec 1) (magnitude : BitVec 15) : Half := sign ++ magnitude

/-- `zext_32(h)`: the wrapper's zero-fill of `y_out[31:16]` for F2H (R26, R55). -/
def zext32 (h : Half) : Word := h.zeroExtend 32

end Sys2Proof.Machine
end

