-- ==== Sys2Proof/Machine/Operands.lean ====
section
/-! DEFINITION. The operand forms: the fields of a word (R14), the ports of the units as wires on the
wrapper's inputs (R23, R24, R26), the forms built from the fields (R44), and the constants the cases
use (R11, R42). -/

namespace Sys2Proof.Machine

/-- `hs = h[15]` (R14). -/
def halfSign (h : Half) : BitVec 1 := h.extractLsb' 15 1

/-- `he = h[14:10]` (R14). -/
def halfExp (h : Half) : BitVec 5 := h.extractLsb' 10 5

/-- `hm = h[9:0]` (R14). -/
def halfMant (h : Half) : BitVec 10 := h.extractLsb' 0 10

/-- The magnitude `h[14:0]` of a half (R14). -/
def halfMagnitude (h : Half) : BitVec 15 := h.extractLsb' 0 15

/-- `fs = f[31]` (R14). -/
def singleSign (f : Single) : BitVec 1 := f.extractLsb' 31 1

/-- `fe = f[30:23]` (R14). -/
def singleExp (f : Single) : BitVec 8 := f.extractLsb' 23 8

/-- `fm = f[22:0]` (R14). -/
def singleMant (f : Single) : BitVec 23 := f.extractLsb' 0 23

/-- The magnitude `f[30:0]` of a single (R14, R74). -/
def singleMagnitude (f : Single) : BitVec 31 := f.extractLsb' 0 31

/-- The wrapper's direction `op[1]`: false selects U1 and true selects U2 (R26). -/
def narrows (op : OpCode) : Bool := op[1]

/-- The `alt` input of both units, driven by `op[0]`: false is IEEE and true is alt (R19, R26). -/
def altOf (op : OpCode) : Bool := op[0]

/-- U1's operand `h_in = a_in[15:0]`; the bits above are ignored (R26). -/
def halfOperand (a : Word) : Half := a.extractLsb' 0 16

/-- U2's operand `f_in = a_in` (R26). -/
def singleOperand (a : Word) : Single := a

/-- The port `h_in` of U1 (R23). -/
def State.hIn (s : State) : Half := halfOperand s.aIn

/-- The port `f_in` of U2 (R24). -/
def State.fIn (s : State) : Single := singleOperand s.aIn

/-- The port `alt` of U1 and U2 (R23, R24). -/
def State.alt (s : State) : Bool := altOf s.op

/-- `msb_index(m)`, the largest p with `m[p] = 1`, for m ≠ 0 (R12). It is never applied to 0. -/
def msbIndex (m : BitVec 10) : Nat := if m = 0#10 then Config.msbIndexOfZero else Nat.log2 m.toNat

/-- `sh = 10 - p`, the shift that moves the top set bit of a half subnormal to the implicit-one position
(R62). -/
def renormShift (h : Half) : Nat := 10 - msbIndex (halfMant h)

/-- The exponent field of a renormalised half subnormal, `E = 1 - sh + (127 - 15)` (R62). -/
def renormExp (h : Half) : BitVec 8 := BitVec.ofInt 8 (1 - (renormShift h : Int) + (127 - 15))

/-- The mantissa field of a renormalised half subnormal, `((hm << sh) & 0x3FF) << 13` (R62). -/
def renormMant (h : Half) : BitVec 23 :=
  BitVec.ofNat 23 ((((halfMant h).toNat <<< renormShift h) &&& 0x3FF) <<< 13)

/-- The exponent field of a widened normal half, `he + (127 - 15)` (R44, R63). -/
def widenExp (h : Half) : BitVec 8 := BitVec.ofNat 8 ((halfExp h).toNat + (127 - 15))

/-- The half-biased exponent `hexp = fe - 127 + 15`, an integer (R44, R77). -/
def hexp (f : Single) : Int := (singleExp f).toNat - 127 + 15

/-- The 24-bit significand `M = {1, fm}` (R44). -/
def significand (f : Single) : Nat := 2 ^ 23 + (singleMant f).toNat

/-- The right shift of the subnormal branch, `sh = 14 - hexp`, used only where `hexp ≤ 0` (R80). -/
def narrowShift (f : Single) : Nat := (14 - hexp f).toNat

/-- The truncated magnitude of the normal branch, `t = {hexp[4:0], fm[22:13]}` (R79). -/
def normalTrunc (f : Single) : BitVec 15 :=
  BitVec.ofInt 5 (hexp f) ++ (singleMant f).extractLsb' 13 10

/-- The truncated magnitude of the subnormal branch, `t = M >> sh` (R81). -/
def subnormalTrunc (f : Single) : BitVec 15 := BitVec.ofNat 15 (significand f >>> narrowShift f)

/-- The largest normal half exponent: 30 for IEEE, and 31 for alt (R79, R83; the spec's D9). Log entry 11. -/
def maxNormalExp (alt : Bool) : Int := if alt then 31 else 30

/-- The magnitude of an overflow or an infinity: 0x7C00 for IEEE (R76, R78), 0x7FFF for alt (R84). -/
def overflowMag (alt : Bool) : BitVec 16 := if alt then 0x7FFF#16 else 0x7C00#16

/-- The magnitude of a NaN's result: 0x7E00 for IEEE (R75; the spec's D7, log entry 9), 0x7FFF for alt
(R85; the spec's D8, log entry 10). -/
def nanMag (alt : Bool) : BitVec 16 := if alt then 0x7FFF#16 else 0x7E00#16

end Sys2Proof.Machine
end

