-- ==== Sys2Proof/Machine/Flags.lean ====
section
/-! DEFINITION. Flags: the block has none. No operation sets or reads a status flag, a condition code or an
IEEE-754 exception flag (R18, R98, R101). The two one-bit conditions of the rules are internal wires
from U2 to U3: the guard bit and the sticky bit (R25, R93). -/

namespace Sys2Proof.Machine

/-- The guard bit of the normal branch, `g = fm[12]` (R79). -/
def normalGuard (f : Single) : Bool := (singleMant f)[12]

/-- The sticky bit of the normal branch, `s = (fm[11:0] != 0)` (R79). -/
def normalSticky (f : Single) : Bool := (singleMant f).extractLsb' 0 12 != 0#12

/-- The guard bit of the subnormal branch, `g = (M >> (sh - 1)) & 1` (R81). -/
def subnormalGuard (f : Single) : Bool := (significand f >>> (narrowShift f - 1)) &&& 1 == 1

/-- The sticky bit of the subnormal branch, `s = ((M & (2^(sh-1) - 1)) != 0)` (R81). -/
def subnormalSticky (f : Single) : Bool :=
  significand f &&& (2 ^ (narrowShift f - 1) - 1) != 0

end Sys2Proof.Machine
end

