-- ==== Sys2Proof/Machine/Rounding.lean ====
section
/-! DEFINITION. Unit U3, `ieee754_rounding_engine` (42_rounding_engine.md): the round-to-nearest-even step
inside U2. It has no operation code, one rounding mode and no flag (R25, R97, R98). -/

namespace Sys2Proof.Machine

/-- `inc = g and (s or t[0])` (R92, R99). -/
def roundIncrement (t : BitVec 15) (g s : Bool) : Bool := g && (s || t[0])

/-- `RNE(t, g, s)`: a 16-bit sum whose bit 15 is the carry out of bit 14 (R92). -/
def rne (t : BitVec 15) (g s : Bool) : BitVec 16 :=
  t.zeroExtend 16 + (BitVec.ofBool (roundIncrement t g s)).zeroExtend 16

end Sys2Proof.Machine
end

