-- ==== Sys2Proof/Machine/Narrow.lean ====
section
/-! DEFINITION. Unit U2, `fp32_to_fp16_converter` (41_fp32_to_fp16.md): the two narrowing operations. -/

namespace Sys2Proof.Machine

/-- The result magnitude of a finite single before the alt saturation (41_fp32_to_fp16.md section 1), in
R103's order: overflow before rounding (R78, R84), normal range (R79), the cut to zero (R80),
subnormal range (R81). -/
def finiteMag (f : Single) (alt : Bool) : BitVec 16 :=
  if maxNormalExp alt < hexp f then overflowMag alt
  else if 1 ≤ hexp f then rne (normalTrunc f) (normalGuard f) (normalSticky f)
  else if 24 < narrowShift f then 0#16
  else rne (subnormalTrunc f) (subnormalGuard f) (subnormalSticky f)

/-- Alt saturation, the last case: a carry out of 0x7FFF is held at 0x7FFF (R83). -/
def saturateAlt (alt : Bool) (mag : BitVec 16) : BitVec 16 :=
  if alt = true ∧ 0x7FFF#16 < mag then 0x7FFF#16 else mag

/-- The result magnitude of every single: NaN first (R75, R85), then infinity (R76, R84), then the finite
cases (R103). -/
def narrowMag (f : Single) (alt : Bool) : BitVec 16 :=
  if singleExp f = 255#8 ∧ singleMant f ≠ 0#23 then nanMag alt
  else if singleExp f = 255#8 then overflowMag alt
  else saturateAlt alt (finiteMag f alt)

/-- `F2H(f, alt)`, the whole meaning of U2: the magnitude, with the sign reattached (R74). -/
def f2h (f : Single) (alt : Bool) : Half :=
  packHalf (singleSign f) ((narrowMag f alt).extractLsb' 0 15)

/-- F2H.IEEE (R72): `h_out <- F2H(f_in, 0)`, and `y_out = zext_32(h_out)` (R26). -/
def execF2hIeee (s : State) : Host.Outcome State Fault Refusal :=
  .next (s.driveOutput (zext32 (f2h s.fIn false)))

/-- F2H.ALT (R73): `h_out <- F2H(f_in, 1)`, and `y_out = zext_32(h_out)` (R26). -/
def execF2hAlt (s : State) : Host.Outcome State Fault Refusal :=
  .next (s.driveOutput (zext32 (f2h s.fIn true)))

end Sys2Proof.Machine
end

