-- ==== Sys2Proof/Machine/Widen.lean ====
section
/-! DEFINITION. Unit U1, `fp16_to_fp32_converter` (40_fp16_to_fp32.md): the two widening operations. -/

namespace Sys2Proof.Machine

/-- `H2F(h, alt)`, the whole meaning of U1 (40_fp16_to_fp32.md section 1), its cases tested in the order
R103 gives: signed zero (R61), subnormal (R62), IEEE infinity (R64), IEEE NaN made quiet (R65), normal
(R63), to which exponent 31 belongs in alt (R66). -/
def h2f (h : Half) (alt : Bool) : Single :=
  if halfExp h = 0#5 ∧ halfMant h = 0#10 then packSingle (halfSign h) 0#8 0#23
  else if halfExp h = 0#5 then packSingle (halfSign h) (renormExp h) (renormMant h)
  else if halfExp h = 31#5 ∧ alt = false ∧ halfMant h = 0#10 then
    packSingle (halfSign h) 0xFF#8 0#23
  else if halfExp h = 31#5 ∧ alt = false then
    packSingle (halfSign h) 0xFF#8 (1#1 ++ (halfMant h).extractLsb' 0 9 ++ 0#13)
  else packSingle (halfSign h) (widenExp h) (halfMant h ++ 0#13)

/-- H2F.IEEE (R58): `f_out <- H2F(h_in, 0)`, and `y_out = f_out` (R26). -/
def execH2fIeee (s : State) : Host.Outcome State Fault Refusal :=
  .next (s.driveOutput (h2f s.hIn false))

/-- H2F.ALT (R59): `f_out <- H2F(h_in, 1)`, and `y_out = f_out` (R26). -/
def execH2fAlt (s : State) : Host.Outcome State Fault Refusal :=
  .next (s.driveOutput (h2f s.hIn true))

end Sys2Proof.Machine
end

