-- ==== Sys2Proof/Machine/Dispatch.lean ====
section
/-! DEFINITION. One arm for each operation of the opcode table. -/

namespace Sys2Proof.Machine

def exec (i : Instr) (s : State) : Host.Outcome State Fault Refusal :=
  match i with
  | .h2fIeee => Sys2Proof.Machine.execH2fIeee s
  | .h2fAlt => Sys2Proof.Machine.execH2fAlt s
  | .f2hIeee => Sys2Proof.Machine.execF2hIeee s
  | .f2hAlt => Sys2Proof.Machine.execF2hAlt s

end Sys2Proof.Machine
end

