-- ==== Sys2Proof/Machine/Step.lean ====
section
/-! DEFINITION. One step is one evaluation of the wrapper on its present inputs (R115, R50). Nothing is
fetched (R17): the `op` input selects the operation (R26, R46). -/

namespace Sys2Proof.Machine

/-- The operation on the `op` input runs on the word on `a_in`. The next operation and operand are the
host's to drive (R15). Log entry 1. -/
def step (s : State) : Host.Outcome State Fault Refusal := exec (decodeOp s.op) s

/-- The host presents the operation of a table word on the `op` input. Nothing else is touched. Log entry 4. -/
def State.withFetchWord (s : State) (nbits w : Nat) : State := { s with op := tableWordOp nbits w }

end Sys2Proof.Machine
end

