-- ==== Sys2Proof/Machine/Checker.lean ====
section
/-! DEFINITION. The pseudocode of the two converters computed on mathematical integers, as R12 reads it and as
the spec's own checker writes it (95_test_vectors.md section 4). It is a second description: no meaning
calls it, and a statement says that the block's bit-level meaning is equal to it. -/

namespace Sys2Proof.Machine.Checker

/-- `rne` of the checker (R92). -/
def rne (t g s : Nat) : Nat := t + (g &&& (s ||| (t &&& 1)))

/-- `dec` of the checker (40_fp16_to_fp32.md section 1). -/
def dec (h : Nat) (alt : Bool) : Nat :=
  let s := h / 2 ^ 15
  let e := h / 2 ^ 10 % 2 ^ 5
  let m := h % 2 ^ 10
  if e = 0 then
    if m = 0 then s * 2 ^ 31
    else
      let p := Nat.log2 m
      s * 2 ^ 31 + (p + 103) * 2 ^ 23 + (m * 2 ^ (10 - p) % 2 ^ 10) * 2 ^ 13
  else if e = 31 ∧ alt = false then
    if m = 0 then s * 2 ^ 31 + 0x7F800000
    else s * 2 ^ 31 + (0x7F800000 ||| 0x00400000 ||| (m * 2 ^ 13))
  else s * 2 ^ 31 + (e + 112) * 2 ^ 23 + m * 2 ^ 13

/-- The magnitude of the checker's `enc` (41_fp32_to_fp16.md section 1), from the exponent field and the
mantissa. -/
def encMag (e m : Nat) (alt : Bool) : Nat :=
  if e = 255 ∧ m ≠ 0 then (if alt then 0x7FFF else 0x7E00)
  else if e = 255 then (if alt then 0x7FFF else 0x7C00)
  else if (if alt then 143 else 142) < e then (if alt then 0x7FFF else 0x7C00)
  else
    let mag :=
      if 113 ≤ e then
        rne ((e - 112) * 2 ^ 10 + m / 2 ^ 13) (m / 2 ^ 12 % 2) (if m % 2 ^ 12 = 0 then 0 else 1)
      else if 24 < 126 - e then 0
      else
        let sh := 126 - e
        let M := 2 ^ 23 + m
        rne (M / 2 ^ sh) (M / 2 ^ (sh - 1) % 2) (if M % 2 ^ (sh - 1) = 0 then 0 else 1)
    if alt = true ∧ 0x7FFF < mag then 0x7FFF else mag

/-- `enc` of the checker. -/
def enc (f : Nat) (alt : Bool) : Nat :=
  f / 2 ^ 31 * 2 ^ 15 + encMag (f / 2 ^ 23 % 2 ^ 8) (f % 2 ^ 23) alt

end Sys2Proof.Machine.Checker
end

