-- ==== Sys2Proof/Machine/Program.lean ====
section
/-! DEFINITION. The host's programs (R50, D19): lists of evaluations of the wrapper, in the order the host
gives. Names are host values and not block state, so they stand beside State and not in it. -/

namespace Sys2Proof.Machine

/-- The operand of a line (R50): a hexadecimal literal, its digits with the most significant first, or
the name of an earlier result. -/
inductive LineOperand where
  | literal (digits : List (BitVec 4))
  | name (n : String)
deriving DecidableEq, Repr

/-- One line, `<name> <- <MNEMONIC> <operand>` (R50). -/
structure Line where
  dst : String
  instr : Instr
  operand : LineOperand
deriving DecidableEq, Repr

/-- The block and the host's names with their values, the latest binding first. -/
structure Bench where
  block : State
  names : List (String × Word)
deriving DecidableEq, Repr

/-- The start of a program: no names bound (95_test_vectors.md section 3). -/
def Bench.start : Bench := { block := State.reset, names := [] }

/-- The value a name is bound to. A name bound twice has its later value. Log entry 14. -/
def Bench.lookup (b : Bench) (n : String) : Option Word :=
  (b.names.find? fun p => p.1 == n).map Prod.snd

/-- The number a list of hexadecimal digits stands for. -/
def digitsValue : List (BitVec 4) → Nat
  | [] => 0
  | d :: ds => d.toNat * 16 ^ ds.length + digitsValue ds

/-- Only bits 15 to 0 of a name are used by H2F (R50). -/
def usedBits (i : Instr) (w : Word) : Word :=
  match i with
  | .h2fIeee => zext32 (halfOperand w)
  | .h2fAlt => zext32 (halfOperand w)
  | .f2hIeee => w
  | .f2hAlt => w

/-- The word a line puts on `a_in`. A literal of the wrong width (R50) or a name that is not bound is no
line of a program, and there is none. Log entry 14. -/
def Line.operandWord (l : Line) (b : Bench) : Option Word :=
  match l.operand with
  | .literal ds => if literalWf l.instr ds then some (BitVec.ofNat 32 (digitsValue ds)) else none
  | .name n => (b.lookup n).map (usedBits l.instr)

/-- The host drives the line's operation and operand, evaluates the wrapper once, and binds `y_out` to
the line's name (R50). -/
def Bench.runLine (b : Bench) (l : Line) : Option Bench :=
  match l.operandWord b with
  | none => none
  | some a =>
    match step (b.block.driveInputs (encodeOp l.instr) a) with
    | .next t => some { block := t, names := (l.dst, t.yOut) :: b.names }
    | .fault _ => none
    | .refused _ => none

/-- The lines of a program, evaluated in the order given (R50, D19). -/
def Bench.runProgram (b : Bench) : List Line → Option Bench
  | [] => some b
  | l :: ls =>
    match b.runLine l with
    | none => none
    | some b' => b'.runProgram ls

end Sys2Proof.Machine
end

