-- ==== Sys2Proof/Machine/Wrapper.lean ====
section
/-! DEFINITION. The wrapper `CORE` and the output ports of the units as functions of the present inputs (R22
to R27): what the wires carry once they have settled, whether or not the host samples them. -/

namespace Sys2Proof.Machine

/-- `CORE(op, a_in)` (R26): `op[1]` selects the unit and `op[0]` drives its `alt`. -/
def coreOut (op : OpCode) (a : Word) : Word :=
  if narrows op then zext32 (f2h (singleOperand a) (altOf op)) else h2f (halfOperand a) (altOf op)

/-- The port `f_out` of U1 (R23). -/
def State.fOut (s : State) : Single := h2f s.hIn s.alt

/-- The port `h_out` of U2 (R24). -/
def State.hOut (s : State) : Half := f2h s.fIn s.alt

/-- The ports `t_in`, `g_in` and `s_in` of U3. -/
structure RoundPorts where
  /-- `t_in[14:0]`, the truncated magnitude -/
  t : BitVec 15
  /-- `g_in`, the guard bit -/
  g : Bool
  /-- `s_in`, the sticky bit -/
  s : Bool
deriving DecidableEq, Repr

/-- What U2 presents to its one instance of U3 (R24, R25). The rules put something there in the normal
and the subnormal range only; for every other operand they say nothing of U3's ports, and there is
`none`. Log entry 13. -/
def roundPorts (f : Single) (alt : Bool) : Option RoundPorts :=
  if singleExp f = 255#8 ∨ maxNormalExp alt < hexp f then none
  else if 1 ≤ hexp f then some ⟨normalTrunc f, normalGuard f, normalSticky f⟩
  else if 24 < narrowShift f then none
  else some ⟨subnormalTrunc f, subnormalGuard f, subnormalSticky f⟩

/-- The port `r_out` of U3 (R25), where U2 uses it. -/
def State.rOut (s : State) : Option (BitVec 16) :=
  (roundPorts s.fIn s.alt).map fun p => rne p.t p.g p.s

end Sys2Proof.Machine
end

