-- ==== Sys2Proof/Machine/Timing.lean ====
section
/-! DEFINITION. Sampling the output a stated time after the inputs last changed (R116, R117). A step samples
after settling; this file says what a sample taken at any time gives. -/

namespace Sys2Proof.Machine

/-- The host samples `y_out` when every input has held one value for `elapsed`. At `T_PD` or later every
bit is the rule value (R116). Earlier the word is any value (R117, I4): a free value, fresh for every
such sample. Log entries 6 and 7. -/
def State.sampleAt (s : State) (elapsed : Nat) : State :=
  if Config.tPd ≤ elapsed then s.driveOutput (coreOut s.op s.aIn)
  else { s with yOut := Config.unsettledWord s.draws, draws := s.draws + 1 }

end Sys2Proof.Machine
end

