-- ==== Sys2Proof/Machine/Value.lean ====
section
/-! DEFINITION. The classes and the values of words (R38 to R43), in which the rules on exactness and
rounding are said. A value is exact: a sign and a number of units of 2^-149, the scale of a single
subnormal, of which every half and every single is a whole number. Log entry 15. -/

namespace Sys2Proof.Machine

/-- The classes of words (R38 to R40), the NaNs divided by R43. -/
inductive FpClass where
  | zero
  | subnormal
  | normal
  | infinity
  | quietNaN
  | signalingNaN
deriving DecidableEq, Repr

/-- The class of a single (R38, R43). -/
def singleClass (f : Single) : FpClass :=
  if singleExp f = 0#8 then (if singleMant f = 0#23 then .zero else .subnormal)
  else if singleExp f = 255#8 then
    (if singleMant f = 0#23 then .infinity
     else if (singleMant f)[22] then .quietNaN else .signalingNaN)
  else .normal

/-- The class of a half: IEEE (R39, R43) or alt, in which nothing is reserved (R40). -/
def halfClass (h : Half) (alt : Bool) : FpClass :=
  if halfExp h = 0#5 then (if halfMant h = 0#10 then .zero else .subnormal)
  else if halfExp h = 31#5 ∧ alt = false then
    (if halfMant h = 0#10 then .infinity
     else if (halfMant h)[9] then .quietNaN else .signalingNaN)
  else .normal

/-- The word is a NaN of single precision (R38). -/
abbrev IsNaN (f : Single) : Prop := singleExp f = 255#8 ∧ singleMant f ≠ 0#23

/-- The word is a NaN of IEEE half precision (R39). -/
abbrev IsHalfNaN (h : Half) : Prop := halfExp h = 31#5 ∧ halfMant h ≠ 0#10

/-- The single is neither an infinity nor a NaN (R38). -/
abbrev IsFinite (f : Single) : Prop := singleExp f ≠ 255#8

/-- What a word stands for (R41). Zero keeps its sign: +0 and -0 are distinct. -/
inductive Value where
  /-- A finite value: negative or not, and its magnitude in units of 2^-149. -/
  | finite (negative : Bool) (units : Nat)
  | infinity (negative : Bool)
  /-- A NaN has no value (C7). -/
  | none
deriving DecidableEq, Repr

/-- The magnitude of a half pattern in units of 2^-24 (R41), for a pattern of any size: n / 1024 is the
exponent field and n % 1024 the mantissa. Patterns from 0x8000 up are no halfs; they carry on the
exponent range, as R86 asks. -/
def halfUnits (n : Nat) : Nat :=
  if n < 1024 then n else (1024 + n % 1024) * 2 ^ (n / 1024 - 1)

/-- The magnitude of a half pattern in units of 2^-149. -/
def halfMagnitudeUnits (n : Nat) : Nat := halfUnits n * 2 ^ 125

/-- The magnitude of a finite single in units of 2^-149 (R41). -/
def singleUnits (f : Single) : Nat :=
  if singleExp f = 0#8 then (singleMant f).toNat
  else (2 ^ 23 + (singleMant f).toNat) * 2 ^ ((singleExp f).toNat - 1)

/-- The value of a single (R41). -/
def singleValue (f : Single) : Value :=
  if singleExp f = 255#8 then
    (if singleMant f = 0#23 then .infinity (singleSign f == 1#1) else .none)
  else .finite (singleSign f == 1#1) (singleUnits f)

/-- The value of a half (R41). -/
def halfValue (h : Half) (alt : Bool) : Value :=
  if halfExp h = 31#5 ∧ alt = false then
    (if halfMant h = 0#10 then .infinity (halfSign h == 1#1) else .none)
  else .finite (halfSign h == 1#1) (halfMagnitudeUnits (halfMagnitude h).toNat)

/-- The distance between two magnitudes. -/
def distance (x y : Nat) : Nat := (x - y) + (y - x)

/-- n is the half pattern nearest to the magnitude x (units of 2^-149) with the exponent range unbounded
above, a tie going to an even mantissa low bit (R86). -/
def IsNearestEven (x n : Nat) : Prop :=
  ∀ k : Nat, distance x (halfMagnitudeUnits n) ≤ distance x (halfMagnitudeUnits k) ∧
    (distance x (halfMagnitudeUnits n) = distance x (halfMagnitudeUnits k) → k = n ∨ n % 2 = 0)

end Sys2Proof.Machine
end

