-- ==== Sys2Proof/Safety.lean ====
section
/-! DEFINITION. What a safe run is, in the terms the statements use. The block can reach no error: the
question is whether the word sampled is the rule value for the inputs, and whether it is a word that
the selected operation can give. -/

namespace Sys2Proof.Machine

/-- The operation widens (U1). -/
abbrev IsWidening (i : Instr) : Prop := i = .h2fIeee ∨ i = .h2fAlt

/-- The operation narrows (U2). -/
abbrev IsNarrowing (i : Instr) : Prop := i = .f2hIeee ∨ i = .f2hAlt

/-- The single word with these fields, as a number: sign at bit 31, exponent at bit 23 (R38). -/
def singleOf (sign : BitVec 1) (exponent mantissa : Nat) : Word :=
  BitVec.ofNat 32 (sign.toNat * 2 ^ 31 + exponent * 2 ^ 23 + mantissa)

/-- `sign:magnitude` as the wrapper shows a half: sign at bit 15, bits 31 to 16 clear (R12, R26). -/
def halfResult (sign : BitVec 1) (magnitude : Nat) : Word :=
  BitVec.ofNat 32 (sign.toNat * 2 ^ 15 + magnitude)

/-- The magnitude x in the units of `singleUnits`. -/
def units (x : Nat) : Nat := x * 2 ^ 149

/-- The word sampled is the rule value for the present inputs (R112, R116). -/
abbrev Settled (s : State) : Prop := s.yOut = coreOut s.op s.aIn

/-- A word U1 can give in IEEE (R58's corner cases, R70): exponent field 0 only for a zero, 103 to 142 or
255, a NaN always quiet, and the low 13 mantissa bits clear. -/
abbrev WidenedIeee (y : Word) : Prop :=
  ((singleExp y).toNat = 0 ∧ singleMant y = 0#23 ∨
    (103 ≤ (singleExp y).toNat ∧ (singleExp y).toNat ≤ 142) ∨
    (singleExp y).toNat = 255 ∧ (singleMant y = 0#23 ∨ (singleMant y)[22] = true)) ∧
  y.extractLsb' 0 13 = 0#13

/-- A word U1 can give in alt (R59's corner cases, R70): never an infinity or a NaN. -/
abbrev WidenedAlt (y : Word) : Prop :=
  ((singleExp y).toNat = 0 ∧ singleMant y = 0#23 ∨
    (103 ≤ (singleExp y).toNat ∧ (singleExp y).toNat ≤ 143)) ∧
  y.extractLsb' 0 13 = 0#13

/-- A word the wrapper can give for F2H.IEEE: the high half is clear (R26), and the low half is at most an
infinity, or the one canonical NaN of its sign (R75; the spec's D7). -/
abbrev NarrowedIeee (y : Word) : Prop :=
  y.extractLsb' 16 16 = 0#16 ∧ ((y.extractLsb' 0 15).toNat ≤ 0x7C00 ∨ (y.extractLsb' 0 15).toNat = 0x7E00)

/-- A word the wrapper can give for F2H.ALT: the high half is clear (R26); every low half is a finite alt
value (R40). -/
abbrev NarrowedAlt (y : Word) : Prop := y.extractLsb' 16 16 = 0#16

/-- The word sampled is one that the selected operation can give. -/
def LegalOutput (s : State) : Prop :=
  match decodeOp s.op with
  | .h2fIeee => WidenedIeee s.yOut
  | .h2fAlt => WidenedAlt s.yOut
  | .f2hIeee => NarrowedIeee s.yOut
  | .f2hAlt => NarrowedAlt s.yOut

end Sys2Proof.Machine
end

