-- ==== Sys2Proof/Certificates/Slice0/Obligations.lean ====
section
/-! DEFINITION. The statements for the provers. Each docstring names the rule of spec/ that the statement
formalises; where a clause rests on one of the spec's own decisions or derivations, or on a log entry
of the model, the docstring says so. -/

open Sys2Proof Sys2Proof.Machine

/-! ## Operation codes, lines and the step -/

/-- 30_encoding.md section 2 (op values by D5): the four codes written out from R45's table decode to their
operations, as words of the opcode table and on the `op` bus. -/
def Obligations.OperationCodesDecodeToTheirRows : Prop :=
  (decodeTableWord 8 0b00 = some .h2fIeee ∧ decodeOp 0b00#2 = .h2fIeee) ∧
  (decodeTableWord 8 0b01 = some .h2fAlt ∧ decodeOp 0b01#2 = .h2fAlt) ∧
  (decodeTableWord 8 0b10 = some .f2hIeee ∧ decodeOp 0b10#2 = .f2hIeee) ∧
  (decodeTableWord 8 0b11 = some .f2hAlt ∧ decodeOp 0b11#2 = .f2hAlt)

/-- 95_test_vectors.md section 3, op values by D5: a line's word is `{op[1:0], a_in[31:0]}`. Decoding the
word of any operation and any operand gives both back, and every one of the 2^34 words is the word of
the line it decodes to. -/
def Obligations.LineWordsDecodeAndEncodeAgree : Prop :=
  (∀ (i : Instr) (a : Word), decodeLine (encodeLine i a) = (i, a)) ∧
  (∀ l : LineWord, encodeLine (decodeLine l).1 (decodeLine l).2 = l) ∧
  (∀ (i : Instr) (a : Word), (encodeLine i a).toNat = (encodeOp i).toNat * 2 ^ 32 + a.toNat)

/-- 30_encoding.md section 5 (D6): a mnemonic decodes to the operation whose mnemonic it is, and no other
word decodes. -/
def Obligations.MnemonicsDecodeToTheirOperations : Prop :=
  (∀ i : Instr, decodeMnemonic i.mnemonic = .ok i) ∧
  (∀ (w : String) (i : Instr), decodeMnemonic w = .ok i → w = i.mnemonic) ∧
  (∀ w : String, (∀ i : Instr, w ≠ i.mnemonic) → decodeMnemonic w = .error (.unknownMnemonic w))

/-- 30_encoding.md section 2: a step runs the operation that the `op` input decodes to, on the operand that
is on `a_in`; so it does for a number put on the `op` input and for a line's word put on both inputs. What
`withFetchWord` touches is the model's choice (log entry 4, DESIGN CHOICE), and that a number above 3
reaches `op` by its bits 1 and 0 is the model's inference (log entry 5, DEDUCED). That a step is one
evaluation is log entry 1. -/
def Obligations.StepRunsTheDecodedOperation : Prop :=
  (∀ (s : State) (i : Instr), decodeOp s.op = i → i.wf = true ∧ step s = exec i s) ∧
  (∀ (s : State) (nbits w : Nat) (i : Instr), decodeTableWord nbits w = some i →
    step (s.withFetchWord nbits w) = exec i { s with op := encodeOp i }) ∧
  (∀ (s : State) (l : LineWord) (i : Instr) (a : Word), decodeLine l = (i, a) →
    step (s.driveInputs (lineOp l) (lineOperand l)) = exec i { s with op := encodeOp i, aIn := a })

/-- 10_state.md section 3 (the wrapper is the spec's D5): `op[1]` selects the unit, `op[0]` drives its
`alt`, U1 reads `a_in[15:0]` and gives `y_out = f_out`, U2 reads `a_in` and gives `y_out[15:0] = h_out`
with `y_out[31:16] = 0`. That a step is one evaluation is the model's choice (log entry 1). -/
def Obligations.StepEvaluatesTheSelectedUnit : Prop :=
  ∀ s : State,
    (s.op[1] = false → s.fOut = h2f (s.aIn.extractLsb' 0 16) s.op[0] ∧
      step s = .next { s with yOut := s.fOut }) ∧
    (s.op[1] = true → s.hOut = f2h s.aIn s.op[0] ∧
      step s = .next { s with yOut := 0#16 ++ s.hOut })

/-! ## The whole machine -/

/-- R7: no operation faults, stalls or refuses an input, and each is a total function of the operand. The
frame of all four operations stands in it: nothing but `y_out` changes. -/
def Obligations.EachOperationIsATotalFunctionOfItsOperand : Prop :=
  ∀ i : Instr, ∃ g : Word → Word, ∀ s : State, exec i s = .next { s with yOut := g s.aIn }

/-- 10_state.md section 2 and 70_reset_and_hazards.md section 3: two evaluations with the same inputs give
the same output, whatever was evaluated or sampled before, and leave the inputs and the model's counter
(log entry 6) alone. That a step is one evaluation is the model's choice (log entry 1). -/
def Obligations.OutputDependsOnPresentInputsOnly : Prop :=
  ∀ s s' : State, s.op = s'.op → s.aIn = s'.aIn →
    ∃ y : Word, step s = .next { s with yOut := y } ∧ step s' = .next { s' with yOut := y }

/-- 20_memory.md section 1: evaluation is idempotent. That a step is one evaluation is the model's choice (log
entry 1). -/
def Obligations.EvaluationIsIdempotent : Prop :=
  ∀ s : State, ∃ t : State, step s = .next t ∧ step t = .next t

/-- From every state a step leaves an output that is the rule value of the inputs and that the selected
operation can give; so the invariant `Settled` and `LegalOutput` is kept by every step. The classes are
those of R58's and R59's corner cases and R91; the canonical NaN in `NarrowedIeee` is the spec's D7 (log
entry 9), and the clear high half of a narrowed word its D5 (log entry 12). The step and the counter
`draws`, which it leaves alone, are the model's (log entries 1 and 6). -/
def Obligations.EveryStepLeavesALegalSettledOutput : Prop :=
  ∀ s : State, ∃ t : State, step s = .next t ∧ Settled t ∧ LegalOutput t ∧
    t.op = s.op ∧ t.aIn = s.aIn ∧ t.draws = s.draws

/-- The state the model starts in meets that invariant, as R112 says of outputs after power-up. The values
of the inputs at the start are the model's choice (log entry 3). -/
def Obligations.ResetOutputIsLegalAndSettled : Prop :=
  Settled State.reset ∧ LegalOutput State.reset

/-- 70_reset_and_hazards.md section 3 (D17): a sample taken `T_PD` or more after the last change of an input
is what a step gives, at every such time the same. An earlier sample changes no input, and a step after it
gives the rule value with the counter `draws` one higher: that counter is the model's own (log entry 6,
DESIGN CHOICE), as is reading a step as a settled sample (log entry 1) and `T_PD` as an open number (log
entry 7). Nothing is said of the word an early sample gives. -/
def Obligations.SampleAfterSettlingIsTheRuleValue : Prop :=
  ∀ (s : State) (elapsed : Nat),
    (Config.tPd ≤ elapsed → step s = .next (s.sampleAt elapsed) ∧
      ∀ later : Nat, elapsed ≤ later → s.sampleAt later = s.sampleAt elapsed) ∧
    (elapsed < Config.tPd → (s.sampleAt elapsed).op = s.op ∧ (s.sampleAt elapsed).aIn = s.aIn ∧
      step (s.sampleAt elapsed) = .next { s with
        yOut := coreOut s.op s.aIn, draws := s.draws + 1 })

/-- R14: the fields of a half and of a single. They are the parts of the word, each at its place, and the
magnitude is the word without its sign. -/
def Obligations.FieldsAreThePartsOfTheWord : Prop :=
  (∀ h : Half, h.toNat = (halfSign h).toNat * 2 ^ 15 + (halfExp h).toNat * 2 ^ 10 + (halfMant h).toNat ∧
    h.toNat = (halfSign h).toNat * 2 ^ 15 + (halfMagnitude h).toNat) ∧
  (∀ f : Single,
    f.toNat = (singleSign f).toNat * 2 ^ 31 + (singleExp f).toNat * 2 ^ 23 + (singleMant f).toNat ∧
    f.toNat = (singleSign f).toNat * 2 ^ 31 + (singleMagnitude f).toNat)

/-! ## Widening (U1) -/

/-- R60: `f_out[31]` equals `hs` for every input and both flavours, with zero and NaN among them. -/
def Obligations.WideningKeepsTheSign : Prop :=
  ∀ (i : Instr) (s : State), IsWidening i →
    ∃ y : Word, exec i s = .next { s with yOut := y } ∧ singleSign y = halfSign s.hIn

/-- R61: a zero widens to the zero of its sign. -/
def Obligations.ZeroWidensToSignedZero : Prop :=
  ∀ (i : Instr) (s : State), IsWidening i → halfExp s.hIn = 0#5 → halfMant s.hIn = 0#10 →
    exec i s = .next { s with
      yOut := if halfSign s.hIn = 1#1 then 0x80000000#32 else 0x00000000#32 }

/-- 40_fp16_to_fp32.md section 3: a half subnormal is renormalised. Every nonzero mantissa has a most significant set bit p, which is
0 to 9; `sh = 10 - p` is also `count_leading_zero_bits` of the 32-bit mantissa less 21; the exponent is
`1 - sh + (127 - 15) = p + 103`; and the mantissa field is `((hm << sh) & 0x3FF) << 13`. That the result
is exact, hm units of 2^-24, is what the spec derives from its R41. -/
def Obligations.SubnormalsWidenByRenormalisation : Prop :=
  (∀ m : BitVec 10, m ≠ 0#10 → ∃ p : Nat, p ≤ 9 ∧ 2 ^ p ≤ m.toNat ∧ m.toNat < 2 ^ (p + 1)) ∧
  ∀ (i : Instr) (s : State) (p sh : Nat), IsWidening i → halfExp s.hIn = 0#5 →
    2 ^ p ≤ (halfMant s.hIn).toNat → (halfMant s.hIn).toNat < 2 ^ (p + 1) → sh + p = 10 →
    sh + 21 = ((halfMant s.hIn).zeroExtend 32).clz.toNat ∧
    (1 - (sh : Int) + (127 - 15) = p + 103) ∧
    ∃ y : Word, exec i s = .next { s with yOut := y } ∧
      y = singleOf (halfSign s.hIn) (p + 103)
        ((((halfMant s.hIn).toNat <<< sh) &&& 0x3FF) <<< 13) ∧
      singleUnits y = (halfMant s.hIn).toNat * 2 ^ 125

/-- R63: a normal half is re-biased, its mantissa copied to the top; the exponent field is 113 to 142. -/
def Obligations.NormalsWidenByRebiasing : Prop :=
  ∀ (i : Instr) (s : State), IsWidening i → 1 ≤ (halfExp s.hIn).toNat → (halfExp s.hIn).toNat ≤ 30 →
    ∃ y : Word, exec i s = .next { s with yOut := y } ∧
      y = singleOf (halfSign s.hIn) ((halfExp s.hIn).toNat + 112) ((halfMant s.hIn).toNat * 2 ^ 13) ∧
      113 ≤ (singleExp y).toNat ∧ (singleExp y).toNat ≤ 142

/-- R64: an IEEE infinity widens to the infinity of its sign. -/
def Obligations.IeeeInfinityWidensToInfinity : Prop :=
  ∀ s : State, halfExp s.hIn = 31#5 → halfMant s.hIn = 0#10 →
    exec .h2fIeee s = .next { s with
      yOut := if halfSign s.hIn = 1#1 then 0xFF800000#32 else 0x7F800000#32 }

/-- R65: an IEEE NaN widens to the quiet NaN with its sign and its payload `hm[8:0]` at bits 21 to 13, in the
concatenation form and in the OR form. -/
def Obligations.IeeeNaNWidensToAQuietNaN : Prop :=
  ∀ s : State, IsHalfNaN s.hIn →
    ∃ y : Word, exec .h2fIeee s = .next { s with yOut := y } ∧
      y = halfSign s.hIn ++ 0xFF#8 ++ 1#1 ++ (halfMant s.hIn).extractLsb' 0 9 ++ 0#13 ∧
      y = singleOf (halfSign s.hIn) 0 (0x7F800000 ||| 0x00400000 ||| ((halfMant s.hIn).toNat <<< 13)) ∧
      singleClass y = .quietNaN

/-- R66: with `alt = 1`, exponent 31 is a normal exponent. -/
def Obligations.AltExponent31WidensAsANormal : Prop :=
  ∀ s : State, halfExp s.hIn = 31#5 →
    ∃ y : Word, exec .h2fAlt s = .next { s with yOut := y } ∧
      y = singleOf (halfSign s.hIn) 143 ((halfMant s.hIn).toNat * 2 ^ 13) ∧
      y = singleOf (halfSign s.hIn) 0 (0x47800000 ||| ((halfMant s.hIn).toNat <<< 13)) ∧
      singleClass y = .normal ∧ units 65536 ≤ singleUnits y ∧ singleUnits y ≤ units 131008

/-- 40_fp16_to_fp32.md section 4: widening is exact. Every half that is not an IEEE NaN widens to a single of
the same value, an infinity to the infinity of its sign. The scale of a single subnormal, from general
knowledge (log entry 15), plays no part: no output is one. -/
def Obligations.WideningIsExact : Prop :=
  ∀ s : State,
    (∃ y : Word, exec .h2fAlt s = .next { s with yOut := y } ∧ singleValue y = halfValue s.hIn true) ∧
    (¬ IsHalfNaN s.hIn →
      ∃ y : Word, exec .h2fIeee s = .next { s with yOut := y } ∧ singleValue y = halfValue s.hIn false)

/-- 40_fp16_to_fp32.md section 4: widening loses no pattern, but for the quiet bit of an IEEE NaN. Two halfs
that widen to one word are one half in alt, and in IEEE unless both are NaNs; two IEEE NaNs that differ
in `hm[9]` only widen to one word. -/
def Obligations.WideningIsInjectiveButForNaNs : Prop :=
  (∀ h k : Half, h2f h true = h2f k true → h = k) ∧
  (∀ h k : Half, ¬ IsHalfNaN h → h2f h false = h2f k false → h = k) ∧
  (∀ h k : Half, IsHalfNaN h → IsHalfNaN k →
    (h2f h false = h2f k false ↔ h ||| 0x0200#16 = k ||| 0x0200#16)) ∧
  (∀ s : State, exec .h2fIeee s = .next { s with yOut := h2f s.hIn false } ∧
    exec .h2fAlt s = .next { s with yOut := h2f s.hIn true })

/-- 40_fp16_to_fp32.md section 4: the class of the output and its exponent field, for each class of input. -/
def Obligations.WideningMapsClassesToClasses : Prop :=
  ∀ (s : State) (i : Instr) (alt : Bool), (i = .h2fIeee ∧ alt = false ∨ i = .h2fAlt ∧ alt = true) →
    ∃ y : Word, exec i s = .next { s with yOut := y } ∧
      match halfClass s.hIn alt with
      | .zero => singleClass y = .zero
      | .subnormal => singleClass y = .normal ∧ 103 ≤ (singleExp y).toNat ∧ (singleExp y).toNat ≤ 112
      | .normal => singleClass y = .normal ∧ 113 ≤ (singleExp y).toNat ∧ (singleExp y).toNat ≤ 143 ∧
          ((singleExp y).toNat = 143 ↔ halfExp s.hIn = 31#5)
      | .infinity => singleClass y = .infinity
      | .quietNaN => singleClass y = .quietNaN
      | .signalingNaN => singleClass y = .quietNaN

/-- 40_fp16_to_fp32.md section 4: the flavours widen alike wherever the exponent field is not 31. -/
def Obligations.FlavoursWidenAlikeBelowExponent31 : Prop :=
  ∀ s : State, halfExp s.hIn ≠ 31#5 →
    ∃ t : State, exec .h2fIeee s = .next t ∧ exec .h2fAlt s = .next t

/-- 10_state.md section 3: the bits `a_in[31:16]` have no effect on a widening. -/
def Obligations.WideningIgnoresTheHighOperandBits : Prop :=
  ∀ (i : Instr) (s : State) (high : BitVec 16), IsWidening i →
    ∃ y : Word, exec i s = .next { s with yOut := y } ∧
      exec i { s with aIn := high ++ s.hIn } = .next { s with aIn := high ++ s.hIn, yOut := y }

/-! ## Rounding (U3) -/

/-- R92: `r` is `t` and the increment `g and (s or t[0])`, and bit 15 is the carry out of bit 14. -/
def Obligations.RoundingAddsTheIncrement : Prop :=
  ∀ (t : BitVec 15) (g s : Bool),
    (rne t g s).toNat = t.toNat + (if g = true ∧ (s = true ∨ t.toNat % 2 = 1) then 1 else 0) ∧
    ((rne t g s)[15] = true ↔ t = 0x7FFF#15 ∧ g = true)

/-- R94: on a tie the increment is made if and only if `t` is odd, and the result is even. -/
def Obligations.TiesRoundToEven : Prop :=
  ∀ t : BitVec 15,
    ((rne t true false).toNat = t.toNat + 1 ↔ t[0] = true) ∧
    ((rne t true false).toNat = t.toNat ↔ t[0] = false) ∧
    (rne t true false)[0] = false

/-- R93: the guard and sticky bits that U2 forms. With the discarded fraction d = rest / 2^sh below the
truncation point, `g = 1` if and only if d ≥ 1/2, and `s = 1` if and only if d is not 0 or 1/2; in the
normal branch they are `fm[12]` and the OR of `fm[11:0]`, in the subnormal branch `M[sh-1]` and the OR
of `M[sh-2:0]`. -/
def Obligations.GuardAndStickyMeanTheDiscardedFraction : Prop :=
  ∀ (f : Single) (alt : Bool) (p : RoundPorts), roundPorts f alt = some p →
    (1 ≤ hexp f →
      (p.t.toNat : Int) * 2 ^ 13 + (singleMant f).toNat % 2 ^ 13 =
        hexp f * 2 ^ 23 + (singleMant f).toNat ∧
      (p.g = (singleMant f).getLsbD 12 ∧
        (p.s = true ↔ ∃ j : Nat, j ≤ 11 ∧ (singleMant f).getLsbD j = true)) ∧
      (p.g = true ↔ 2 ^ 13 ≤ 2 * ((singleMant f).toNat % 2 ^ 13)) ∧
      (p.s = true ↔ (singleMant f).toNat % 2 ^ 13 ≠ 0 ∧ 2 * ((singleMant f).toNat % 2 ^ 13) ≠ 2 ^ 13)) ∧
    (∀ sh : Nat, hexp f ≤ 0 → (sh : Int) = 14 - hexp f →
      p.t.toNat * 2 ^ sh + significand f % 2 ^ sh = significand f ∧
      (p.g = (significand f).testBit (sh - 1) ∧
        (p.s = true ↔ ∃ j : Nat, j + 2 ≤ sh ∧ (significand f).testBit j = true)) ∧
      (p.g = true ↔ 2 ^ sh ≤ 2 * (significand f % 2 ^ sh)) ∧
      (p.s = true ↔ significand f % 2 ^ sh ≠ 0 ∧ 2 * (significand f % 2 ^ sh) ≠ 2 ^ sh))

/-- 42_rounding_engine.md: with `g` and `s` formed from the discarded fraction n / 2^k, U3 gives the integer
nearest to t + n / 2^k, a tie going to the even one. -/
def Obligations.RoundingGivesTheNearestInteger : Prop :=
  ∀ (t : BitVec 15) (n k : Nat) (g s : Bool), 1 ≤ k → n < 2 ^ k →
    (g = true ↔ 2 ^ k ≤ 2 * n) → (s = true ↔ n ≠ 0 ∧ 2 * n ≠ 2 ^ k) →
    ∀ j : Nat,
      distance (t.toNat * 2 ^ k + n) ((rne t g s).toNat * 2 ^ k) ≤
        distance (t.toNat * 2 ^ k + n) (j * 2 ^ k) ∧
      (distance (t.toNat * 2 ^ k + n) ((rne t g s).toNat * 2 ^ k) =
        distance (t.toNat * 2 ^ k + n) (j * 2 ^ k) →
        j = (rne t g s).toNat ∨ (rne t g s).toNat % 2 = 0)

/-- 10_state.md section 3 and 42_rounding_engine.md: wherever U2 presents something to its rounding engine,
the magnitude of the result is what the engine gives, held at 0x7FFF in alt (the alt range is the
spec's D9, log entry 11). What the view `roundPorts` shows of U3 is log entry 13. -/
def Obligations.NarrowingGoesThroughItsRoundingEngine : Prop :=
  ∀ (s : State) (p : RoundPorts), s.op[1] = true → roundPorts s.fIn s.alt = some p →
    s.rOut = some (rne p.t p.g p.s) ∧
    step s = .next { s with
      yOut := halfResult (singleSign s.fIn)
        (if s.alt = true then min 0x7FFF (rne p.t p.g p.s).toNat else (rne p.t p.g p.s).toNat) }

/-- 41_fp32_to_fp16.md section 4 and 42_rounding_engine.md: after U3 the magnitude is at most 0x7C00 in IEEE
and at most 0x8000 in alt, in the subnormal branch at most 0x0400; after saturation it is at most
0x7FFF, so no bit is lost when the sign is reattached. The alt range is the spec's D9 (log entry 11). -/
def Obligations.NoMagnitudeBitIsLost : Prop :=
  ∀ f : Single,
    (IsFinite f → (finiteMag f false).toNat ≤ 0x7C00 ∧ (finiteMag f true).toNat ≤ 0x8000) ∧
    (∀ alt : Bool, hexp f ≤ 0 → (finiteMag f alt).toNat ≤ 0x0400) ∧
    (∀ alt : Bool, (narrowMag f alt).toNat ≤ 0x7FFF ∧
      (halfMagnitude (f2h f alt)).toNat = (narrowMag f alt).toNat)

/-- 30_encoding.md section 6 and 41_fp32_to_fp16.md section 4: the ranges, and that every truncation to a bus
width is exact: `hexp` to 5 bits and `M >> sh` to 15 in the truncated magnitudes, `E` and `he + 112` to
8 and the mantissa of a renormalised subnormal to 23, the rounding sum to 16, and the magnitude of a
result to `mag[14:0]`. -/
def Obligations.NoDatapathStepOverflows : Prop :=
  (∀ f : Single, -112 ≤ hexp f ∧ hexp f ≤ 143 ∧
    (1 ≤ hexp f → hexp f ≤ 31 →
      ((normalTrunc f).toNat : Int) = hexp f * 2 ^ 10 + (singleMant f).toNat / 2 ^ 13) ∧
    (14 ≤ narrowShift f → narrowShift f ≤ 24 →
      (subnormalTrunc f).toNat = significand f / 2 ^ narrowShift f ∧ (subnormalTrunc f).toNat ≤ 1023)) ∧
  (∀ h : Half, (widenExp h).toNat = (halfExp h).toNat + 112 ∧
    (halfMant h ≠ 0#10 → (renormExp h).toNat = msbIndex (halfMant h) + 103 ∧
      103 ≤ (renormExp h).toNat ∧ (renormExp h).toNat ≤ 112 ∧
      (renormMant h).toNat = (((halfMant h).toNat <<< renormShift h) &&& 0x3FF) <<< 13)) ∧
  (∀ (t : BitVec 15) (g s : Bool), (rne t g s).toNat =
    t.toNat + (if g = true ∧ (s = true ∨ t[0] = true) then 1 else 0) ∧ (rne t g s).toNat ≤ 0x8000) ∧
  (∀ (f : Single) (alt : Bool),
    ((narrowMag f alt).extractLsb' 0 15).toNat = (narrowMag f alt).toNat)

/-! ## Narrowing (U2) -/

/-- R74: U2 works on the magnitude `f[30:0]` and reattaches `fs` as `h_out[15]`, for every input and both
flavours. -/
def Obligations.NarrowingWorksOnTheMagnitude : Prop :=
  ∀ i : Instr, IsNarrowing i → ∃ g : BitVec 31 → BitVec 15, ∀ s : State,
    exec i s = .next { s with yOut := 0#16 ++ (singleSign s.fIn ++ g (singleMagnitude s.fIn)) }

/-- 41_fp32_to_fp16.md section 3: every NaN, quiet or signaling and with any payload, narrows to one word of
its sign. The bits are the spec's own decisions: 0x7E00 in IEEE (D7, log entry 9) and 0x7FFF in alt
(D8, log entry 10). -/
def Obligations.NaNNarrowsToOneWordOfItsSign : Prop :=
  ∀ s : State, IsNaN s.fIn →
    exec .f2hIeee s = .next { s with yOut := halfResult (singleSign s.fIn) 0x7E00 } ∧
    exec .f2hAlt s = .next { s with yOut := halfResult (singleSign s.fIn) 0x7FFF }

/-- R76, R78: in IEEE an infinity, and every finite single with `hexp ≥ 31`, narrows to the infinity of its
sign; `hexp ≥ 31` is `fe ≥ 143` and is |x| ≥ 2^16. -/
def Obligations.IeeeInfinityAndOverflowNarrowToInfinity : Prop :=
  (∀ s : State, singleExp s.fIn = 255#8 → singleMant s.fIn = 0#23 → hexp s.fIn = 143 ∧
    exec .f2hIeee s = .next { s with yOut := halfResult (singleSign s.fIn) 0x7C00 }) ∧
  (∀ s : State, IsFinite s.fIn → 31 ≤ hexp s.fIn →
    exec .f2hIeee s = .next { s with yOut := halfResult (singleSign s.fIn) 0x7C00 }) ∧
  (∀ f : Single, IsFinite f → ((31 ≤ hexp f ↔ 143 ≤ (singleExp f).toNat) ∧
    (31 ≤ hexp f ↔ units (2 ^ 16) ≤ singleUnits f)))

/-- R84: in alt an infinity, and every finite single with `hexp ≥ 32`, narrows to the greatest magnitude of
its sign; `hexp ≥ 32` is |x| ≥ 2^17. -/
def Obligations.AltInfinityAndOverflowSaturate : Prop :=
  (∀ s : State, singleExp s.fIn = 255#8 → singleMant s.fIn = 0#23 →
    exec .f2hAlt s = .next { s with yOut := halfResult (singleSign s.fIn) 0x7FFF }) ∧
  (∀ s : State, IsFinite s.fIn → 32 ≤ hexp s.fIn →
    exec .f2hAlt s = .next { s with yOut := halfResult (singleSign s.fIn) 0x7FFF }) ∧
  (∀ f : Single, IsFinite f → (32 ≤ hexp f ↔ units (2 ^ 17) ≤ singleUnits f))

/-- 41_fp32_to_fp16.md section 3: the normal range is rounded by `g and (s or t[0])`, the carry going into the
exponent. The range of alt runs to `hexp = 31` and its carry out of 0x7FFF saturates: that reading is
the spec's D9 (log entry 11). -/
def Obligations.NormalRangeNarrowsByRounding : Prop :=
  ∀ (s : State) (t inc : Nat),
    t = ((singleExp s.fIn).toNat - 112) * 2 ^ 10 + (singleMant s.fIn).toNat / 2 ^ 13 →
    inc = (if (singleMant s.fIn).toNat / 2 ^ 12 % 2 = 1 ∧
      ((singleMant s.fIn).toNat % 2 ^ 12 ≠ 0 ∨ t % 2 = 1) then 1 else 0) →
    113 ≤ (singleExp s.fIn).toNat →
    ((singleExp s.fIn).toNat ≤ 142 →
      exec .f2hIeee s = .next { s with yOut := halfResult (singleSign s.fIn) (t + inc) }) ∧
    ((singleExp s.fIn).toNat ≤ 143 →
      exec .f2hAlt s = .next { s with yOut := halfResult (singleSign s.fIn) (min 0x7FFF (t + inc)) })

/-- R80: where `hexp ≤ 0` and `sh = 14 - hexp` exceeds 24, the result is the zero of the sign. Those are the
finite singles with `hexp ≤ -11`, with `fe ≤ 101`, with |x| < 2^-25 (said of the normal ones: the scale of
a single subnormal is no rule, log entry 15); every zero and every single subnormal is among them. -/
def Obligations.TinySinglesNarrowToSignedZero : Prop :=
  (∀ (i : Instr) (s : State), IsNarrowing i → hexp s.fIn ≤ 0 → 24 < 14 - hexp s.fIn →
    exec i s = .next { s with yOut := halfResult (singleSign s.fIn) 0x0000 }) ∧
  (∀ f : Single, (hexp f ≤ 0 ∧ 24 < 14 - hexp f ↔ hexp f ≤ -11) ∧
    (hexp f ≤ -11 ↔ (singleExp f).toNat ≤ 101) ∧
    (IsFinite f → singleExp f ≠ 0#8 → (hexp f ≤ -11 ↔ singleUnits f < 2 ^ 124)) ∧
    (singleExp f = 0#8 → hexp f ≤ -11))

/-- R81: the subnormal range. With `M = 2^23 + fm`, `t = M >> sh` is 0 to 0x3FF, the guard bit is `M[sh-1]`,
the sticky bit is the OR of `M[sh-2:0]`, and the result magnitude is `RNE(t, g, s)`; a carry from 0x3FF
gives 0x0400. -/
def Obligations.SubnormalRangeNarrowsByRounding : Prop :=
  ∀ (i : Instr) (s : State) (sh M t inc : Nat), IsNarrowing i →
    -10 ≤ hexp s.fIn → hexp s.fIn ≤ 0 → (sh : Int) = 14 - hexp s.fIn →
    M = 2 ^ 23 + (singleMant s.fIn).toNat → t = M / 2 ^ sh →
    inc = (if M / 2 ^ (sh - 1) % 2 = 1 ∧ (M % 2 ^ (sh - 1) ≠ 0 ∨ t % 2 = 1) then 1 else 0) →
    14 ≤ sh ∧ sh ≤ 24 ∧ t ≤ 0x3FF ∧
    exec i s = .next { s with yOut := halfResult (singleSign s.fIn) (t + inc) }

/-- R82: IEEE overflow by rounding. Every single in [65520, 65536) narrows to the infinity of its sign, with
`hexp = 30` and a carry out of the mantissa; it is the only way a finite single below 2^16 becomes an
infinity; the largest single that does not overflow, 0x477FEFFF, gives 0x7BFF. -/
def Obligations.IeeeOverflowByRoundingStartsAt65520 : Prop :=
  ∀ s : State, IsFinite s.fIn →
    (units 65520 ≤ singleUnits s.fIn → singleUnits s.fIn < units 65536 →
      (hexp s.fIn = 30 ∧ (finiteMag s.fIn false) = 0x7C00#16) ∧
      exec .f2hIeee s = .next { s with yOut := halfResult (singleSign s.fIn) 0x7C00 }) ∧
    (singleUnits s.fIn < units 65520 →
      ∃ m : Nat, m ≤ 0x7BFF ∧
        exec .f2hIeee s = .next { s with yOut := halfResult (singleSign s.fIn) m }) ∧
    (singleMagnitude s.fIn = 0x477FEFFF#31 →
      exec .f2hIeee s = .next { s with yOut := halfResult (singleSign s.fIn) 0x7BFF })

/-- 41_fp32_to_fp16.md section 3, the alt range as the spec's D9 reads it (log entry 11): 65536 narrows to
0x7C00, the tie 130976 to the even 0x7FFE, and everything above it to 0x7FFF. -/
def Obligations.AltSaturatesAbove130976 : Prop :=
  ∀ s : State, IsFinite s.fIn →
    (singleUnits s.fIn = units 65536 →
      exec .f2hAlt s = .next { s with yOut := halfResult (singleSign s.fIn) 0x7C00 }) ∧
    (singleUnits s.fIn = units 130976 →
      exec .f2hAlt s = .next { s with yOut := halfResult (singleSign s.fIn) 0x7FFE }) ∧
    (units 130976 < singleUnits s.fIn →
      exec .f2hAlt s = .next { s with yOut := halfResult (singleSign s.fIn) 0x7FFF })

/-- 41_fp32_to_fp16.md section 4: F2H.IEEE is correctly rounded. The magnitude of the result is the half
pattern nearest to the operand, ties to even, with the exponent range unbounded above, and infinity
where that value exceeds 65504; an infinity narrows to infinity. The value of a single subnormal is
presumed (log entry 15, PRESUMED). -/
def Obligations.IeeeNarrowingIsCorrectlyRounded : Prop :=
  ∀ s : State,
    (IsFinite s.fIn → ∃ n : Nat, IsNearestEven (singleUnits s.fIn) n ∧
      (n ≤ 0x7BFF ↔ halfMagnitudeUnits n ≤ units 65504) ∧
      exec .f2hIeee s = .next { s with
        yOut := halfResult (singleSign s.fIn) (if n ≤ 0x7BFF then n else 0x7C00) }) ∧
    (singleExp s.fIn = 255#8 → ¬ IsNaN s.fIn →
      exec .f2hIeee s = .next { s with yOut := halfResult (singleSign s.fIn) 0x7C00 })

/-- 41_fp32_to_fp16.md section 4 (the alt range is the spec's D9, log entry 11): F2H.ALT is correctly rounded.
The magnitude of the result is the alt pattern nearest to the operand, ties to even, with the exponent
range unbounded above, and 0x7FFF where that value exceeds 131008; an infinity saturates. The value of a
single subnormal is presumed (log entry 15, PRESUMED). -/
def Obligations.AltNarrowingIsCorrectlyRounded : Prop :=
  ∀ s : State,
    (IsFinite s.fIn → ∃ n : Nat, IsNearestEven (singleUnits s.fIn) n ∧
      (n ≤ 0x7FFF ↔ halfMagnitudeUnits n ≤ units 131008) ∧
      exec .f2hAlt s = .next { s with
        yOut := halfResult (singleSign s.fIn) (if n ≤ 0x7FFF then n else 0x7FFF) }) ∧
    (singleExp s.fIn = 255#8 → ¬ IsNaN s.fIn →
      exec .f2hAlt s = .next { s with yOut := halfResult (singleSign s.fIn) 0x7FFF })

/-- 41_fp32_to_fp16.md section 4: where the operand's value is representable in the target flavour, the result
is that representation, and no rounding occurs: the guard and sticky bits are 0. For F2H.ALT of magnitudes
from 2^16 up to 2^17 it rests on the spec's D9 (log entry 11); that no single subnormal is representable,
on their presumed value (log entry 15, PRESUMED). -/
def Obligations.RepresentableSinglesNarrowExactly : Prop :=
  ∀ (s : State) (h : Half) (i : Instr) (alt : Bool),
    (i = .f2hIeee ∧ alt = false ∨ i = .f2hAlt ∧ alt = true) →
    singleValue s.fIn ≠ .none → singleValue s.fIn = halfValue h alt →
    exec i s = .next { s with yOut := 0#16 ++ h } ∧
    (∀ p : RoundPorts, roundPorts s.fIn alt = some p → p.g = false ∧ p.s = false)

/-- 41_fp32_to_fp16.md section 4: the round trip. Widening any half that is not an IEEE NaN, and narrowing
what comes out in the same flavour, gives the half back; in alt for every pattern. For the alt patterns
with exponent 31 it rests on the spec's D9 (log entry 11). -/
def Obligations.NarrowingUndoesWidening : Prop :=
  ∀ (s : State) (a : Word) (widen narrow : Instr),
    (widen = .h2fIeee ∧ narrow = .f2hIeee ∧ ¬ IsHalfNaN (a.extractLsb' 0 16) ∨
      widen = .h2fAlt ∧ narrow = .f2hAlt) →
    ∃ t u : State, step (s.driveInputs (encodeOp widen) a) = .next t ∧
      step (t.driveInputs (encodeOp narrow) t.yOut) = .next u ∧
      u.yOut = 0#16 ++ a.extractLsb' 0 16

/-- 41_fp32_to_fp16.md section 4: the flavours narrow to the same bits for finite |x| ≤ 65568; above that, and
for an infinity and a NaN, IEEE and alt give different bits, as listed (the NaN bits are the spec's D7
and D8, the alt range its D9: log entries 9, 10 and 11). The value of a single subnormal is presumed
(log entry 15, PRESUMED). -/
def Obligations.FlavoursNarrowAlikeUpTo65568 : Prop :=
  ∀ s : State,
    (IsFinite s.fIn → singleUnits s.fIn ≤ units 65568 →
      ∃ t : State, exec .f2hIeee s = .next t ∧ exec .f2hAlt s = .next t) ∧
    (IsFinite s.fIn → units 65520 ≤ singleUnits s.fIn → singleUnits s.fIn ≤ units 65568 →
      exec .f2hAlt s = .next { s with yOut := halfResult (singleSign s.fIn) 0x7C00 }) ∧
    (IsFinite s.fIn → units 65568 < singleUnits s.fIn →
      exec .f2hIeee s = .next { s with yOut := halfResult (singleSign s.fIn) 0x7C00 } ∧
      ∃ m : Nat, 0x7C01 ≤ m ∧ m ≤ 0x7FFF ∧
        exec .f2hAlt s = .next { s with yOut := halfResult (singleSign s.fIn) m }) ∧
    (singleExp s.fIn = 255#8 →
      ∃ m : Nat, m = (if singleMant s.fIn = 0#23 then 0x7C00 else 0x7E00) ∧
        exec .f2hIeee s = .next { s with yOut := halfResult (singleSign s.fIn) m } ∧
        exec .f2hAlt s = .next { s with yOut := halfResult (singleSign s.fIn) 0x7FFF })

/-- 41_fp32_to_fp16.md section 4: between finite singles of one sign, narrowing never reverses an order of
magnitudes. It follows from nearest rounding (R86) and holds in both flavours, in alt with the range of
the spec's D9 (log entry 11). The value of a single subnormal is presumed (log entry 15, PRESUMED). -/
def Obligations.NarrowingIsMonotone : Prop :=
  ∀ (f g : Single) (alt : Bool), IsFinite f → IsFinite g → singleUnits f ≤ singleUnits g →
    (halfMagnitude (f2h f alt)).toNat ≤ (halfMagnitude (f2h g alt)).toNat

/-- 95_test_vectors.md section 4 and 00_scope.md section 5: the bit-level meaning of the four operations is
the pseudocode computed on mathematical integers, for every operand. Both descriptions carry the spec's
decisions D7, D8 and D9 (log entries 9, 10 and 11) and the wrapper's zero-fill, its D5 (log entry 12). -/
def Obligations.OperationsEqualTheIntegerPseudocode : Prop :=
  ∀ s : State,
    exec .h2fIeee s = .next { s with yOut := BitVec.ofNat 32 (Checker.dec s.hIn.toNat false) } ∧
    exec .h2fAlt s = .next { s with yOut := BitVec.ofNat 32 (Checker.dec s.hIn.toNat true) } ∧
    exec .f2hIeee s = .next { s with yOut := BitVec.ofNat 32 (Checker.enc s.fIn.toNat false) } ∧
    exec .f2hAlt s = .next { s with yOut := BitVec.ofNat 32 (Checker.enc s.fIn.toNat true) }

/-! ## Programs of the host -/

/-- 30_encoding.md section 5: a line is one evaluation of the wrapper with the line's `op` and operand; its
name receives `y_out`, and every other name keeps its value. -/
def Obligations.ALineIsOneEvaluationOfTheWrapper : Prop :=
  ∀ (b : Bench) (l : Line) (a : Word), l.operandWord b = some a →
    ∃ b' : Bench, b.runLine l = some b' ∧
      b'.block = { b.block with
        op := encodeOp l.instr, aIn := a, yOut := coreOut (encodeOp l.instr) a } ∧
      b'.lookup l.dst = some (coreOut (encodeOp l.instr) a) ∧
      ∀ n : String, n ≠ l.dst → b'.lookup n = b.lookup n

/-- 30_encoding.md section 5: a literal has the operand width of its operation, 4 digits for H2F and 8 for
F2H, and stands for its number; a literal of another width, and a name not bound, run nothing (log
entry 14). A name used by H2F gives bits 15 to 0. -/
def Obligations.OperandsOfALineAreLiteralsAndNames : Prop :=
  ∀ (b : Bench) (l : Line),
    (∀ ds : List (BitVec 4), l.operand = .literal ds →
      (4 * ds.length = l.instr.operandBits →
        ∃ a : Word, l.operandWord b = some a ∧ a.toNat = digitsValue ds) ∧
      (4 * ds.length ≠ l.instr.operandBits → b.runLine l = none)) ∧
    (∀ n : String, l.operand = .name n →
      (b.lookup n = none → b.runLine l = none) ∧
      (∀ w : Word, b.lookup n = some w → ∃ a : Word, l.operandWord b = some a ∧
        a.toNat = w.toNat % 2 ^ l.instr.operandBits))

/-- 20_memory.md section 2: two lines that bind different names, neither of which is the other's operand, give
every name the same value in either order. -/
def Obligations.IndependentLinesGiveTheSameNamesInEitherOrder : Prop :=
  ∀ (b c d : Bench) (l m : Line), l.dst ≠ m.dst →
    l.operand ≠ .name m.dst → m.operand ≠ .name l.dst →
    b.runProgram [l, m] = some c → b.runProgram [m, l] = some d →
    ∀ n : String, c.lookup n = d.lookup n

/-- 30_encoding.md section 5: the lines of a program are evaluated in order. No line leaves the bench as it
is, one line is one evaluation, a line before others is evaluated first, and a program of two parts is
the second part run on what the first part leaves. -/
def Obligations.ProgramsRunInTheOrderGiven : Prop :=
  ∀ b : Bench, b.runProgram [] = some b ∧
    (∀ l : Line, b.runProgram [l] = b.runLine l) ∧
    (∀ (l : Line) (ls : List Line),
      b.runProgram (l :: ls) = (b.runLine l).bind fun c => c.runProgram ls) ∧
    (∀ ls ms : List Line,
      b.runProgram (ls ++ ms) = (b.runProgram ls).bind fun c => c.runProgram ms)
end

