-- ==== Sys2Proof/Laws/Fields.lean ====
section
/-! SUPPORT. What each field, operand form and packing is as a number; later proofs cite these and unfold no
bit operation. -/

namespace Sys2Proof.Machine

/-- Concatenation as a sum: `{x, y}` is x times 2^m and y (R12). -/
theorem toNat_append_eq_add {n m : Nat} (x : BitVec n) (y : BitVec m) :
    (x ++ y).toNat = x.toNat * 2 ^ m + y.toNat := by
  rw [BitVec.toNat_append, ← Nat.shiftLeft_add_eq_or_of_lt y.isLt, Nat.shiftLeft_eq]

/-! ### Fields of a half -/

theorem halfSign_toNat (h : Half) : (halfSign h).toNat = h.toNat / 2 ^ 15 := by
  simp only [halfSign, BitVec.extractLsb'_toNat, Nat.shiftRight_eq_div_pow]; omega

theorem halfExp_toNat (h : Half) : (halfExp h).toNat = h.toNat / 2 ^ 10 % 2 ^ 5 := by
  simp only [halfExp, BitVec.extractLsb'_toNat, Nat.shiftRight_eq_div_pow]

theorem halfMant_toNat (h : Half) : (halfMant h).toNat = h.toNat % 2 ^ 10 := by
  simp [halfMant, BitVec.extractLsb'_toNat]

theorem halfMagnitude_toNat (h : Half) : (halfMagnitude h).toNat = h.toNat % 2 ^ 15 := by
  simp [halfMagnitude, BitVec.extractLsb'_toNat]

/-! ### Fields of a single -/

theorem singleSign_toNat (f : Single) : (singleSign f).toNat = f.toNat / 2 ^ 31 := by
  simp only [singleSign, BitVec.extractLsb'_toNat, Nat.shiftRight_eq_div_pow]; omega

theorem singleExp_toNat (f : Single) : (singleExp f).toNat = f.toNat / 2 ^ 23 % 2 ^ 8 := by
  simp only [singleExp, BitVec.extractLsb'_toNat, Nat.shiftRight_eq_div_pow]

theorem singleMant_toNat (f : Single) : (singleMant f).toNat = f.toNat % 2 ^ 23 := by
  simp [singleMant, BitVec.extractLsb'_toNat]

theorem singleMagnitude_toNat (f : Single) : (singleMagnitude f).toNat = f.toNat % 2 ^ 31 := by
  simp [singleMagnitude, BitVec.extractLsb'_toNat]

/-! ### Packing -/

theorem packSingle_toNat (s : BitVec 1) (e : BitVec 8) (m : BitVec 23) :
    (packSingle s e m).toNat = s.toNat * 2 ^ 31 + e.toNat * 2 ^ 23 + m.toNat := by
  simp only [packSingle, toNat_append_eq_add]; ring

@[simp] theorem singleSign_packSingle (s : BitVec 1) (e : BitVec 8) (m : BitVec 23) :
    singleSign (packSingle s e m) = s := by
  have he := e.isLt
  have hm := m.isLt
  apply BitVec.eq_of_toNat_eq
  rw [singleSign_toNat, packSingle_toNat]; omega

@[simp] theorem singleExp_packSingle (s : BitVec 1) (e : BitVec 8) (m : BitVec 23) :
    singleExp (packSingle s e m) = e := by
  have he := e.isLt
  have hm := m.isLt
  apply BitVec.eq_of_toNat_eq
  rw [singleExp_toNat, packSingle_toNat]; omega

@[simp] theorem singleMant_packSingle (s : BitVec 1) (e : BitVec 8) (m : BitVec 23) :
    singleMant (packSingle s e m) = m := by
  have hm := m.isLt
  apply BitVec.eq_of_toNat_eq
  rw [singleMant_toNat, packSingle_toNat]; omega

theorem packHalf_toNat (s : BitVec 1) (m : BitVec 15) :
    (packHalf s m).toNat = s.toNat * 2 ^ 15 + m.toNat := by
  simp only [packHalf, toNat_append_eq_add]

@[simp] theorem halfSign_packHalf (s : BitVec 1) (m : BitVec 15) : halfSign (packHalf s m) = s := by
  have hm := m.isLt
  apply BitVec.eq_of_toNat_eq
  rw [halfSign_toNat, packHalf_toNat]; omega

@[simp] theorem halfMagnitude_packHalf (s : BitVec 1) (m : BitVec 15) :
    halfMagnitude (packHalf s m) = m := by
  have hm := m.isLt
  apply BitVec.eq_of_toNat_eq
  rw [halfMagnitude_toNat, packHalf_toNat]; omega

theorem zext32_toNat (h : Half) : (zext32 h).toNat = h.toNat := by
  have := h.isLt
  simp only [zext32, BitVec.truncate_eq_setWidth, BitVec.toNat_setWidth]; omega

/-- What is zero-filled comes back as U1's operand. -/
@[simp] theorem halfOperand_zext32 (h : Half) : halfOperand (zext32 h) = h := by
  apply BitVec.eq_of_toNat_eq
  have := h.isLt
  simp only [halfOperand, BitVec.extractLsb'_toNat, zext32_toNat, Nat.shiftRight_zero]; omega

/-! ### Forms built from the fields -/

theorem hexp_eq (f : Single) : hexp f = (singleExp f).toNat - 112 := by
  unfold hexp; omega

theorem narrowShift_eq (f : Single) (h : hexp f ≤ 0) : narrowShift f + (singleExp f).toNat = 126 := by
  rw [hexp_eq] at h
  unfold narrowShift
  rw [hexp_eq]; omega

theorem significand_lt (f : Single) : significand f < 2 ^ 24 := by
  have := (singleMant f).isLt
  unfold significand; omega

/-- `msb_index` is the largest p with bit p set (R12). -/
theorem msbIndex_spec (m : BitVec 10) (h : m ≠ 0#10) :
    2 ^ msbIndex m ≤ m.toNat ∧ m.toNat < 2 ^ (msbIndex m + 1) := by
  have h0 : m.toNat ≠ 0 := fun e => h (BitVec.eq_of_toNat_eq (by simpa using e))
  simp only [msbIndex, h, if_false]
  exact ⟨Nat.log2_self_le h0, Nat.lt_log2_self⟩

theorem msbIndex_le (m : BitVec 10) (h : m ≠ 0#10) : msbIndex m ≤ 9 := by
  have h1 := (msbIndex_spec m h).1
  have h2 := m.isLt
  by_contra hc
  have : 2 ^ 10 ≤ 2 ^ msbIndex m := Nat.pow_le_pow_right (by decide) (by omega)
  omega

/-! ### Rounding -/

theorem rne_toNat (t : BitVec 15) (g s : Bool) :
    (rne t g s).toNat = t.toNat + (roundIncrement t g s).toNat := by
  have ht := t.isLt
  cases h : roundIncrement t g s <;> simp [rne, h, BitVec.toNat_add] <;> omega

end Sys2Proof.Machine
end

