-- ==== Sys2Proof/Laws/State.lean ====
section
/-! SUPPORT. One lemma per field and update of State, so that no proof unfolds a record update. -/

namespace Sys2Proof.Machine

variable (s : State) (op : OpCode) (a w : Word) (nbits n : Nat)

@[simp] theorem State.driveOutput_op : (s.driveOutput w).op = s.op := rfl
@[simp] theorem State.driveOutput_aIn : (s.driveOutput w).aIn = s.aIn := rfl
@[simp] theorem State.driveOutput_yOut : (s.driveOutput w).yOut = w := rfl
@[simp] theorem State.driveOutput_draws : (s.driveOutput w).draws = s.draws := rfl

@[simp] theorem State.driveInputs_op : (s.driveInputs op a).op = op := rfl
@[simp] theorem State.driveInputs_aIn : (s.driveInputs op a).aIn = a := rfl
@[simp] theorem State.driveInputs_yOut : (s.driveInputs op a).yOut = s.yOut := rfl
@[simp] theorem State.driveInputs_draws : (s.driveInputs op a).draws = s.draws := rfl

@[simp] theorem State.withFetchWord_op : (s.withFetchWord nbits n).op = tableWordOp nbits n := rfl
@[simp] theorem State.withFetchWord_aIn : (s.withFetchWord nbits n).aIn = s.aIn := rfl
@[simp] theorem State.withFetchWord_yOut : (s.withFetchWord nbits n).yOut = s.yOut := rfl
@[simp] theorem State.withFetchWord_draws : (s.withFetchWord nbits n).draws = s.draws := rfl

@[simp] theorem State.reset_op : State.reset.op = 0#2 := rfl
@[simp] theorem State.reset_aIn : State.reset.aIn = 0#32 := rfl
@[simp] theorem State.reset_yOut : State.reset.yOut = 0#32 := rfl
@[simp] theorem State.reset_draws : State.reset.draws = 0 := rfl

theorem State.driveOutput_eq : s.driveOutput w = { s with yOut := w } := rfl
theorem State.driveInputs_eq : s.driveInputs op a = { s with op := op, aIn := a } := rfl

/-- A later output replaces an earlier one. -/
@[simp] theorem State.driveOutput_driveOutput (v : Word) :
    (s.driveOutput v).driveOutput w = s.driveOutput w := rfl

theorem State.sampleAt_settled (h : Config.tPd ≤ n) :
    s.sampleAt n = s.driveOutput (coreOut s.op s.aIn) := by simp [State.sampleAt, h]

@[simp] theorem State.sampleAt_op : (s.sampleAt n).op = s.op := by
  unfold State.sampleAt; split <;> rfl

@[simp] theorem State.sampleAt_aIn : (s.sampleAt n).aIn = s.aIn := by
  unfold State.sampleAt; split <;> rfl

end Sys2Proof.Machine
end

