-- ==== Sys2Proof/Laws/Ops.lean ====
section
/-! SUPPORT. What evaluating an operation can do, said once: it answers a next state in which the output is
the wrapper's and nothing else has changed. -/

namespace Sys2Proof.Machine

@[simp] theorem decodeOp_encodeOp (i : Instr) : decodeOp (encodeOp i) = i := by
  cases i <;> rfl

@[simp] theorem encodeOp_decodeOp (op : OpCode) : encodeOp (decodeOp op) = op := by
  revert op; decide

/-- Everything `exec` can do. -/
theorem exec_eq (i : Instr) (s : State) :
    exec i s = .next (s.driveOutput (coreOut (encodeOp i) s.aIn)) := by
  cases i <;> rfl

/-- Everything `step` can do. -/
theorem step_eq (s : State) : step s = .next (s.driveOutput (coreOut s.op s.aIn)) := by
  rw [step, exec_eq, encodeOp_decodeOp]

theorem coreOut_widen (op : OpCode) (a : Word) (h : narrows op = false) :
    coreOut op a = h2f (halfOperand a) (altOf op) := by simp [coreOut, h]

theorem coreOut_narrow (op : OpCode) (a : Word) (h : narrows op = true) :
    coreOut op a = zext32 (f2h a (altOf op)) := by simp [coreOut, h, singleOperand]

/-- The one evaluation a line makes. -/
theorem Bench.runLine_eq (b : Bench) (l : Line) : b.runLine l =
    (l.operandWord b).map fun a =>
      { block := (b.block.driveInputs (encodeOp l.instr) a).driveOutput (coreOut (encodeOp l.instr) a)
        names := (l.dst, coreOut (encodeOp l.instr) a) :: b.names } := by
  unfold Bench.runLine
  cases l.operandWord b <;> simp [step_eq]

end Sys2Proof.Machine
end

