-- ==== Sys2Proof/Laws/PerInstr.lean ====
section
/-! SUPPORT. Families of facts about every operation as syntax, one lemma per constructor. -/

namespace Sys2Proof.Laws.OpCodeRow

/-- The operation code is direction and flavour (R45): `op[1]` is set exactly for the operations with a
32-bit operand, the code fits the bus, and it decodes back as a table word. -/
def Statement (i : Instr) : Prop :=
  i.wf = true ∧ (Machine.narrows (encodeOp i) = true ↔ i.operandBits = 32) ∧
    opNumberWf (encodeOp i).toNat = true ∧ decodeTableWord 8 (encodeOp i).toNat = some i

theorem h2fIeee : Statement .h2fIeee := by unfold Statement; decide
theorem h2fAlt : Statement .h2fAlt := by unfold Statement; decide
theorem f2hIeee : Statement .f2hIeee := by unfold Statement; decide
theorem f2hAlt : Statement .f2hAlt := by unfold Statement; decide

end Sys2Proof.Laws.OpCodeRow
end

