-- ==== Sys2Proof/Tests/Slice0.lean ====
section
/-! SUPPORT. Tests and witnesses. Expected results are the spec's: the encodings of 30_encoding.md section 2
and 95_test_vectors.md, and its vectors (sections 2.1 to 2.4 and 3, each named by its input). A witness
shows, for a statement with hypotheses, states and operands that meet all of them. -/

namespace Sys2Proof.Tests
open Sys2Proof Sys2Proof.Machine

/-- A state that presents a word, with a sampled word that no operation of the tests gives. -/
def present (i : Instr) (a : Word) : State :=
  { op := encodeOp i, aIn := a, yOut := 0xDEADBEEF#32, draws := 3 }

/-- Running the operation on a word gives this output and changes nothing else. -/
def gives (i : Instr) (a y : Word) : Bool :=
  match exec i (present i a) with
  | .next t => t == { present i a with yOut := y }
  | .fault _ => false
  | .refused _ => false

/-- A step of the wrapper on these inputs gives this output. -/
def stepGives (op : OpCode) (a y : Word) : Bool :=
  match step (State.reset.driveInputs op a) with
  | .next t => t.yOut == y
  | .fault _ => false
  | .refused _ => false

/-- The hexadecimal digits of an 8-digit literal, most significant first. -/
def digits8 (w : Word) : List (BitVec 4) :=
  [w.extractLsb' 28 4, w.extractLsb' 24 4, w.extractLsb' 20 4, w.extractLsb' 16 4,
    w.extractLsb' 12 4, w.extractLsb' 8 4, w.extractLsb' 4 4, w.extractLsb' 0 4]

/-- A line run on a bench binds its name to this word. -/
def lineGives (names : List (String × Word)) (l : Line) (y : Word) : Bool :=
  match Bench.runLine { block := State.reset, names := names } l with
  | some b => b.lookup l.dst == some y
  | none => false

/-! ### Well-formedness: what each check accepts and what it refuses -/

theorem test_every_operation_wf :
    Instr.h2fIeee.wf ∧ Instr.h2fAlt.wf ∧ Instr.f2hIeee.wf ∧ Instr.f2hAlt.wf := by decide
theorem test_op_number_three_fits : opNumberWf 3 = true := by decide
theorem test_op_number_four_refused : opNumberWf 4 = false := by decide
theorem test_literal_of_four_digits_for_h2f : literalWf .h2fIeee [3, 12, 0, 0] = true := by decide
theorem test_literal_of_three_digits_refused : literalWf .h2fAlt [12, 0, 0] = false := by decide
theorem test_literal_of_four_digits_refused_for_f2h : literalWf .f2hAlt [3, 12, 0, 0] = false := by decide
theorem test_line_with_ill_formed_literal_runs_nothing :
    Bench.start.runLine ⟨"a", .f2hIeee, .literal [3, 12, 0, 0]⟩ = none := by decide
theorem test_line_with_unbound_name_runs_nothing :
    Bench.start.runLine ⟨"b", .h2fIeee, .name "a"⟩ = none := by decide

/-! ### Decoding: op[1] is the direction, op[0] the flavour (R45), bit by bit -/

theorem test_decode_direction_and_flavour :
    decodeOp (0#1 ++ 0#1) = .h2fIeee ∧ decodeOp (0#1 ++ 1#1) = .h2fAlt ∧
      decodeOp (1#1 ++ 0#1) = .f2hIeee ∧ decodeOp (1#1 ++ 1#1) = .f2hAlt := by decide
theorem test_table_words :
    decodeTableWord 8 0 = some .h2fIeee ∧ decodeTableWord 8 1 = some .h2fAlt ∧
      decodeTableWord 8 2 = some .f2hIeee ∧ decodeTableWord 8 3 = some .f2hAlt := by decide
/-- P1, line 1: `a <- F2H.IEEE 0x3EAAAAAB` is `10` above `0x3EAAAAAB`. -/
theorem test_line_word_f2h : decodeLine 0x23EAAAAAB#34 = (.f2hIeee, 0x3EAAAAAB#32) := by decide
/-- P2, line 6: `f <- H2F.ALT e`, `01` above `0x00007FFF`. -/
theorem test_line_word_h2f : decodeLine 0x100007FFF#34 = (.h2fAlt, 0x00007FFF#32) := by decide
theorem test_mnemonic_decodes : decodeMnemonic "F2H.ALT" = .ok .f2hAlt := by rfl
theorem test_unknown_mnemonic_rejected_by_name :
    decodeMnemonic "H2F" = .error (.unknownMnemonic "H2F") := by rfl
/-- R51, R8, R9: the strategy and the form of the result make no other operation. -/
theorem test_doc_names :
    (∀ alt, DocName.decode16to32.instr alt = DocName.halfToSingleValue.instr alt ∧
      DocName.decode16to32Fp.instr alt = DocName.halfToSingleBits.instr alt ∧
      DocName.encode32to16.instr alt = DocName.singleValueToHalfBits.instr alt ∧
      DocName.encode32to16Fp.instr alt = DocName.encode32to16.instr alt) ∧
    DocName.decode16to32.instr true = .h2fAlt ∧ DocName.encode32to16.instr false = .f2hIeee := by decide
theorem test_fetch_word_runs_first : step (State.reset.withFetchWord 8 3) =
    .next { op := 3#2, aIn := 0#32, yOut := 0#32, draws := 0 } := by rfl

/-! ### One operation, one operand (section 2.1, 2.2) -/

theorem test_h2f_ieee_subnormal : gives .h2fIeee 0x0003#32 0x34400000#32 = true := by decide
theorem test_h2f_ieee_signaling_nan : gives .h2fIeee 0x7C01#32 0x7FC02000#32 = true := by decide
theorem test_h2f_alt_negative_exponent_31 : gives .h2fAlt 0xFFFF#32 0xC7FFE000#32 = true := by decide
theorem test_h2f_alt_max_subnormal : gives .h2fAlt 0x03FF#32 0x387FC000#32 = true := by decide
theorem test_f2h_ieee_tie_overflows : gives .f2hIeee 0xC77FF000#32 0xFC00#32 = true := by decide
theorem test_f2h_ieee_tie_at_least_subnormal : gives .f2hIeee 0x33000000#32 0x0000#32 = true := by decide
theorem test_f2h_alt_carry_saturates : gives .f2hAlt 0xC7FFF000#32 0xFFFF#32 = true := by decide
theorem test_f2h_alt_65536_is_exact : gives .f2hAlt 0x47800000#32 0x7C00#32 = true := by decide

/-! ### The wrapper (section 2.4) and the rounding engine (section 2.3) -/

theorem test_wrapper_ignores_high_half : stepGives 0b00#2 0xFFFF3C00#32 0x3F800000#32 = true := by decide
theorem test_wrapper_fills_high_half : stepGives 0b11#2 0xFF800000#32 0x0000FFFF#32 = true := by decide
theorem test_rne_tie_odd_up : rne 0x3C01#15 true false = 0x3C02#16 := by decide
theorem test_rne_carry_out : rne 0x7FFF#15 true false = 0x8000#16 := by decide
theorem test_rne_below_half_kept : rne 0x3C01#15 false true = 0x3C01#16 := by decide

/-! ### One line of a program (section 3) -/

theorem test_line_literal :
    lineGives [] ⟨"b", .f2hIeee, .literal (digits8 0x33000001#32)⟩ 0x00000001#32 = true := by decide
theorem test_line_name : lineGives [("c", 0x00007C00#32)] ⟨"d", .h2fAlt, .name "c"⟩ 0x47800000#32 = true := by
  decide

/-! ### Values (R42) -/

theorem test_value_of_largest_alt_half : halfValue 0x7FFF#16 true = .finite false (units 131008) := by decide
theorem test_value_of_smallest_half : halfValue 0x0001#16 false = .finite false (2 ^ 125) := by decide
theorem test_value_of_one : singleValue 0xBF800000#32 = .finite true (units 1) := by decide
theorem test_class_of_signaling_nan : singleClass 0x7F800001#32 = .signalingNaN := by decide

/-! ### Witnesses for the hypotheses of the statements -/

theorem witness_MnemonicsDecodeToTheirOperations :
    decodeMnemonic "H2F.ALT" = .ok .h2fAlt ∧ ∀ i : Instr, "H2F" ≠ i.mnemonic :=
  ⟨rfl, fun i => by cases i <;> decide⟩

theorem witness_StepRunsTheDecodedOperation :
    decodeOp (present .f2hAlt 7).op = .f2hAlt ∧ decodeTableWord 8 2 = some .f2hIeee ∧
      decodeLine 0x23EAAAAAB#34 = (.f2hIeee, 0x3EAAAAAB#32) := by decide

theorem witness_StepEvaluatesTheSelectedUnit :
    (present .h2fAlt 7).op[1] = false ∧ (present .f2hIeee 7).op[1] = true := by decide

theorem witness_OutputDependsOnPresentInputsOnly :
    (present .f2hAlt 7).op = { present .f2hAlt 7 with yOut := 1, draws := 0 }.op ∧
      (present .f2hAlt 7).aIn = { present .f2hAlt 7 with yOut := 1, draws := 0 }.aIn ∧
      present .f2hAlt 7 ≠ { present .f2hAlt 7 with yOut := 1, draws := 0 } := by decide

/-- The settled clause is met at the delay itself, its inner clause at any later time. Whether a time below
the delay exists depends on `T_PD`, which is open: it does unless `T_PD` is 0. -/
theorem witness_SampleAfterSettlingIsTheRuleValue :
    Config.tPd ≤ Config.tPd ∧ Config.tPd ≤ Config.tPd + 1 ∧
      (Config.tPd ≠ 0 → ∃ elapsed, elapsed < Config.tPd) :=
  ⟨Nat.le_refl _, Nat.le_succ _, fun h => ⟨0, Nat.pos_of_ne_zero h⟩⟩

theorem witness_WideningKeepsTheSign : IsWidening .h2fIeee ∧ IsWidening .h2fAlt := by decide

theorem witness_ZeroWidensToSignedZero : IsWidening .h2fAlt ∧
    halfExp (present .h2fAlt 0x8000).hIn = 0#5 ∧ halfMant (present .h2fAlt 0x8000).hIn = 0#10 := by decide

/-- At both ends of the range, p = 0 and p = 9. -/
theorem witness_SubnormalsWidenByRenormalisation :
    (IsWidening .h2fIeee ∧ halfExp (present .h2fIeee 0x0001).hIn = 0#5 ∧
      2 ^ 0 ≤ (halfMant (present .h2fIeee 0x0001).hIn).toNat ∧
      (halfMant (present .h2fIeee 0x0001).hIn).toNat < 2 ^ (0 + 1) ∧ 10 + 0 = 10) ∧
    (IsWidening .h2fAlt ∧ halfExp (present .h2fAlt 0x03FF).hIn = 0#5 ∧
      2 ^ 9 ≤ (halfMant (present .h2fAlt 0x03FF).hIn).toNat ∧
      (halfMant (present .h2fAlt 0x03FF).hIn).toNat < 2 ^ (9 + 1) ∧ 1 + 9 = 10) ∧
    (0x200#10 ≠ 0#10) := by decide

theorem witness_NormalsWidenByRebiasing :
    (IsWidening .h2fIeee ∧ 1 ≤ (halfExp (present .h2fIeee 0x0400).hIn).toNat ∧
      (halfExp (present .h2fIeee 0x0400).hIn).toNat ≤ 30) ∧
    (IsWidening .h2fAlt ∧ 1 ≤ (halfExp (present .h2fAlt 0xFBFF).hIn).toNat ∧
      (halfExp (present .h2fAlt 0xFBFF).hIn).toNat ≤ 30) := by decide

theorem witness_IeeeInfinityWidensToInfinity :
    halfExp (present .h2fIeee 0xFC00).hIn = 31#5 ∧ halfMant (present .h2fIeee 0xFC00).hIn = 0#10 := by decide

theorem witness_IeeeNaNWidensToAQuietNaN : IsHalfNaN (present .h2fIeee 0x7C01).hIn := by decide

theorem witness_AltExponent31WidensAsANormal :
    halfExp (present .h2fAlt 0x7C00).hIn = 31#5 ∧ halfExp (present .h2fAlt 0xFFFF).hIn = 31#5 := by decide

theorem witness_WideningIsExact : ¬ IsHalfNaN (present .h2fIeee 0xFC00).hIn := by decide

theorem witness_WideningIsInjectiveButForNaNs :
    h2f 0x7C01#16 true = h2f 0x7C01#16 true ∧
    (¬ IsHalfNaN 0x7C00#16 ∧ h2f 0x7C00#16 false = h2f 0x7C00#16 false) ∧
    (IsHalfNaN 0x7C01#16 ∧ IsHalfNaN 0x7E01#16 ∧ h2f 0x7C01#16 false = h2f 0x7E01#16 false) ∧
    (IsHalfNaN 0xFE00#16 ∧ h2f 0xFE00#16 false ≠ h2f 0x7E01#16 false) := by decide

/-- One half of each class. -/
theorem witness_WideningMapsClassesToClasses :
    halfClass 0x8000#16 true = .zero ∧ halfClass 0x0001#16 false = .subnormal ∧
      halfClass 0x0400#16 false = .normal ∧ halfClass 0x7C00#16 true = .normal ∧
      halfClass 0x7C00#16 false = .infinity ∧ halfClass 0x7E00#16 false = .quietNaN ∧
      halfClass 0x7C01#16 false = .signalingNaN := by decide

theorem witness_FlavoursWidenAlikeBelowExponent31 : halfExp (present .h2fIeee 0x7BFF).hIn ≠ 31#5 := by decide

theorem witness_WideningIgnoresTheHighOperandBits :
    IsWidening .h2fAlt ∧ (present .h2fAlt (0xFFFF#16 ++ 0x7C00#16)).hIn = (present .h2fAlt 0x7C00).hIn := by
  decide

/-- The normal branch at its ends 1 and 31 of `hexp`, and the subnormal branch at its ends 0 and -10. -/
theorem witness_GuardAndStickyMeanTheDiscardedFraction :
    (roundPorts 0x38801000#32 false = some ⟨0x0400#15, true, false⟩ ∧ hexp 0x38801000#32 = 1) ∧
    (roundPorts 0x47FFF001#32 true = some ⟨0x7FFF#15, true, true⟩ ∧ hexp 0x47FFF001#32 = 31) ∧
    (roundPorts 0x387FE000#32 false = some ⟨0x03FF#15, true, false⟩ ∧
      hexp 0x387FE000#32 ≤ 0 ∧ ((14 : Nat) : Int) = 14 - hexp 0x387FE000#32) ∧
    (roundPorts 0x33000001#32 true = some ⟨0#15, true, true⟩ ∧
      hexp 0x33000001#32 ≤ 0 ∧ ((24 : Nat) : Int) = 14 - hexp 0x33000001#32) := by decide

/-- A tie, and a fraction below and above a half. -/
theorem witness_RoundingGivesTheNearestInteger :
    (1 ≤ 1 ∧ 1 < 2 ^ 1 ∧ (true = true ↔ 2 ^ 1 ≤ 2 * 1) ∧ (false = true ↔ 1 ≠ 0 ∧ 2 * 1 ≠ 2 ^ 1)) ∧
    (1 ≤ 2 ∧ 1 < 2 ^ 2 ∧ (false = true ↔ 2 ^ 2 ≤ 2 * 1) ∧ (true = true ↔ 1 ≠ 0 ∧ 2 * 1 ≠ 2 ^ 2)) ∧
    (1 ≤ 2 ∧ 3 < 2 ^ 2 ∧ (true = true ↔ 2 ^ 2 ≤ 2 * 3) ∧ (true = true ↔ 3 ≠ 0 ∧ 2 * 3 ≠ 2 ^ 2)) := by decide

theorem witness_NarrowingGoesThroughItsRoundingEngine :
    (present .f2hAlt 0x47FFF000).op[1] = true ∧
      roundPorts (present .f2hAlt 0x47FFF000).fIn (present .f2hAlt 0x47FFF000).alt =
        some ⟨0x7FFF#15, true, false⟩ := by decide

theorem witness_NoMagnitudeBitIsLost :
    IsFinite 0x47FFF000#32 ∧ hexp 0x387FE000#32 ≤ 0 ∧ hexp 0#32 ≤ 0 := by decide

theorem witness_NoDatapathStepOverflows :
    (1 ≤ hexp 0x38800000#32 ∧ hexp 0x38800000#32 ≤ 31) ∧ (1 ≤ hexp 0x47FFFFFF#32 ∧ hexp 0x47FFFFFF#32 ≤ 31) ∧
    (14 ≤ narrowShift 0x387FFFFF#32 ∧ narrowShift 0x387FFFFF#32 ≤ 24) ∧
    (14 ≤ narrowShift 0x33000000#32 ∧ narrowShift 0x33000000#32 ≤ 24) ∧
    halfMant 0x0001#16 ≠ 0#10 ∧ halfMant 0x03FF#16 ≠ 0#10 := by decide

theorem witness_NarrowingWorksOnTheMagnitude : IsNarrowing .f2hIeee ∧ IsNarrowing .f2hAlt := by decide

theorem witness_NaNNarrowsToOneWordOfItsSign :
    IsNaN (present .f2hIeee 0x7F800001).fIn ∧ IsNaN (present .f2hAlt 0xFFFFFFFF).fIn := by decide

theorem witness_IeeeInfinityAndOverflowNarrowToInfinity :
    (singleExp (present .f2hIeee 0xFF800000).fIn = 255#8 ∧ singleMant (present .f2hIeee 0xFF800000).fIn = 0#23) ∧
    (IsFinite (present .f2hIeee 0x47800000).fIn ∧ 31 ≤ hexp (present .f2hIeee 0x47800000).fIn) := by decide

theorem witness_AltInfinityAndOverflowSaturate :
    (singleExp (present .f2hAlt 0x7F800000).fIn = 255#8 ∧ singleMant (present .f2hAlt 0x7F800000).fIn = 0#23) ∧
    (IsFinite (present .f2hAlt 0x48000000).fIn ∧ 32 ≤ hexp (present .f2hAlt 0x48000000).fIn) := by decide

/-- IEEE at both ends of the normal range, and alt at its last exponent with the carry that saturates. -/
theorem witness_NormalRangeNarrowsByRounding :
    (113 ≤ (singleExp (present .f2hIeee 0x38800000).fIn).toNat ∧
      (singleExp (present .f2hIeee 0x38800000).fIn).toNat ≤ 142) ∧
    (113 ≤ (singleExp (present .f2hIeee 0x477FF000).fIn).toNat ∧
      (singleExp (present .f2hIeee 0x477FF000).fIn).toNat ≤ 142) ∧
    (113 ≤ (singleExp (present .f2hAlt 0x47FFF000).fIn).toNat ∧
      (singleExp (present .f2hAlt 0x47FFF000).fIn).toNat ≤ 143) := by decide

theorem witness_TinySinglesNarrowToSignedZero :
    (IsNarrowing .f2hIeee ∧ hexp (present .f2hIeee 0x32FFFFFF).fIn ≤ 0 ∧
      24 < 14 - hexp (present .f2hIeee 0x32FFFFFF).fIn) ∧
    (IsFinite 0x32FFFFFF#32 ∧ singleExp 0x32FFFFFF#32 ≠ 0#8) ∧ singleExp 0x807FFFFF#32 = 0#8 := by decide

/-- Both ends of the range of the shift, 24 with a tie to zero and 14 with the carry to 0x0400. -/
theorem witness_SubnormalRangeNarrowsByRounding :
    (IsNarrowing .f2hIeee ∧ -10 ≤ hexp (present .f2hIeee 0x33000000).fIn ∧
      hexp (present .f2hIeee 0x33000000).fIn ≤ 0 ∧
      ((24 : Nat) : Int) = 14 - hexp (present .f2hIeee 0x33000000).fIn) ∧
    (IsNarrowing .f2hAlt ∧ -10 ≤ hexp (present .f2hAlt 0x387FE000).fIn ∧
      hexp (present .f2hAlt 0x387FE000).fIn ≤ 0 ∧
      ((14 : Nat) : Int) = 14 - hexp (present .f2hAlt 0x387FE000).fIn) := by decide

theorem witness_IeeeOverflowByRoundingStartsAt65520 :
    (IsFinite (present .f2hIeee 0x477FF000).fIn ∧ units 65520 ≤ singleUnits (present .f2hIeee 0x477FF000).fIn ∧
      singleUnits (present .f2hIeee 0x477FF000).fIn < units 65536) ∧
    (IsFinite (present .f2hIeee 0xC77FEFFF).fIn ∧ singleUnits (present .f2hIeee 0xC77FEFFF).fIn < units 65520 ∧
      singleMagnitude (present .f2hIeee 0xC77FEFFF).fIn = 0x477FEFFF#31) := by decide

theorem witness_AltSaturatesAbove130976 :
    (IsFinite (present .f2hAlt 0x47800000).fIn ∧ singleUnits (present .f2hAlt 0x47800000).fIn = units 65536) ∧
    (IsFinite (present .f2hAlt 0x47FFD000).fIn ∧ singleUnits (present .f2hAlt 0x47FFD000).fIn = units 130976) ∧
    (IsFinite (present .f2hAlt 0x47FFD001).fIn ∧ units 130976 < singleUnits (present .f2hAlt 0x47FFD001).fIn) := by
  decide

theorem witness_IeeeNarrowingIsCorrectlyRounded :
    IsFinite (present .f2hIeee 0x477FF000).fIn ∧
    (singleExp (present .f2hIeee 0x7F800000).fIn = 255#8 ∧ ¬ IsNaN (present .f2hIeee 0x7F800000).fIn) := by decide

theorem witness_AltNarrowingIsCorrectlyRounded :
    IsFinite (present .f2hAlt 0x47FFF000).fIn ∧
    (singleExp (present .f2hAlt 0xFF800000).fIn = 255#8 ∧ ¬ IsNaN (present .f2hAlt 0xFF800000).fIn) := by decide

/-- In IEEE an infinity, and a subnormal, where U3 is used; in alt the greatest half. -/
theorem witness_RepresentableSinglesNarrowExactly :
    (singleValue (present .f2hIeee 0xFF800000).fIn ≠ .none ∧
      singleValue (present .f2hIeee 0xFF800000).fIn = halfValue 0xFC00#16 false) ∧
    (singleValue (present .f2hIeee 0x33800000).fIn = halfValue 0x0001#16 false ∧
      roundPorts (present .f2hIeee 0x33800000).fIn false = some ⟨1#15, false, false⟩) ∧
    (singleValue (present .f2hAlt 0x47FFE000).fIn = halfValue 0x7FFF#16 true ∧
      roundPorts (present .f2hAlt 0x47FFE000).fIn true = some ⟨0x7FFF#15, false, false⟩) := by decide

theorem witness_NarrowingUndoesWidening : ¬ IsHalfNaN ((0xABCDFC00#32 : Word).extractLsb' 0 16) := by decide

theorem witness_FlavoursNarrowAlikeUpTo65568 :
    (IsFinite (present .f2hAlt 0x47801000).fIn ∧ units 65520 ≤ singleUnits (present .f2hAlt 0x47801000).fIn ∧
      singleUnits (present .f2hAlt 0x47801000).fIn ≤ units 65568) ∧
    (IsFinite (present .f2hAlt 0x47801001).fIn ∧ units 65568 < singleUnits (present .f2hAlt 0x47801001).fIn) ∧
    singleExp (present .f2hAlt 0x7FC00000).fIn = 255#8 := by decide

theorem witness_NarrowingIsMonotone : IsFinite 0x477FEFFF#32 ∧ IsFinite 0xC77FF000#32 ∧
    singleUnits 0x477FEFFF#32 ≤ singleUnits 0xC77FF000#32 := by decide

theorem witness_ALineIsOneEvaluationOfTheWrapper :
    Line.operandWord ⟨"c", .h2fIeee, .name "b"⟩ { block := State.reset, names := [("b", 1)] } =
      some 1#32 := by decide

/-- A literal of the right width and of the wrong one, and a name unbound and bound. -/
theorem witness_OperandsOfALineAreLiteralsAndNames :
    4 * [(3 : BitVec 4), 12, 0, 0].length = Instr.h2fAlt.operandBits ∧
    4 * [(3 : BitVec 4), 12, 0, 0].length ≠ Instr.f2hAlt.operandBits ∧
    Bench.start.lookup "a" = none ∧
    Bench.lookup { block := State.reset, names := [("a", 0xFFFF3C00)] } "a" = some 0xFFFF3C00#32 := by decide

theorem witness_IndependentLinesGiveTheSameNamesInEitherOrder :
    ((Bench.start.runProgram [⟨"a", .h2fIeee, .literal [3, 12, 0, 0]⟩, ⟨"b", .h2fAlt, .literal [7, 12, 0, 0]⟩]).isSome ∧
      (Bench.start.runProgram [⟨"b", .h2fAlt, .literal [7, 12, 0, 0]⟩, ⟨"a", .h2fIeee, .literal [3, 12, 0, 0]⟩]).isSome) ∧
    ("a" ≠ "b") ∧ LineOperand.literal [3, 12, 0, 0] ≠ .name "b" ∧ LineOperand.literal [7, 12, 0, 0] ≠ .name "a" := by
  decide

end Sys2Proof.Tests
end

section
/-! PROOFS of the family 00_scope.md: the parts of a word (R14), and each operation as a total function of
its operand (R7). -/

namespace Sys2Proof.Machine

/-! ### A word is the sum of its parts, each at its place -/

theorem half_toNat_eq_fields (h : Half) :
    h.toNat = (halfSign h).toNat * 2 ^ 15 + (halfExp h).toNat * 2 ^ 10 + (halfMant h).toNat := by
  rw [halfSign_toNat, halfExp_toNat, halfMant_toNat]; omega

theorem half_toNat_eq_sign_magnitude (h : Half) :
    h.toNat = (halfSign h).toNat * 2 ^ 15 + (halfMagnitude h).toNat := by
  rw [halfSign_toNat, halfMagnitude_toNat]; omega

theorem single_toNat_eq_fields (f : Single) :
    f.toNat = (singleSign f).toNat * 2 ^ 31 + (singleExp f).toNat * 2 ^ 23 + (singleMant f).toNat := by
  rw [singleSign_toNat, singleExp_toNat, singleMant_toNat]; omega

theorem single_toNat_eq_sign_magnitude (f : Single) :
    f.toNat = (singleSign f).toNat * 2 ^ 31 + (singleMagnitude f).toNat := by
  rw [singleSign_toNat, singleMagnitude_toNat]; omega

/-- Settles O12: each field is the quotient or remainder of the word at its place (Laws/Fields), and these
add up to the word. -/
theorem fieldsAreThePartsOfTheWord : Obligations.FieldsAreThePartsOfTheWord :=
  ⟨fun h => ⟨half_toNat_eq_fields h, half_toNat_eq_sign_magnitude h⟩,
    fun f => ⟨single_toNat_eq_fields f, single_toNat_eq_sign_magnitude f⟩⟩

/-! ### An operation as a function of its operand -/

/-- Settles O6: the function is the wrapper's output for the operation's own code. `exec_eq` says that every
operation answers with it, on every state, and drives nothing but the output. -/
theorem eachOperationIsATotalFunctionOfItsOperand :
    Obligations.EachOperationIsATotalFunctionOfItsOperand := by
  intro i
  exact ⟨coreOut (encodeOp i), fun s => by rw [exec_eq, State.driveOutput_eq]⟩

end Sys2Proof.Machine
end

section
/-! PROOFS of the family 40_fp16_to_fp32.md: the widening operations, case by case (R60 to R66). -/

namespace Sys2Proof.Machine

/-! ### What a widening operation answers -/

/-- The output of a widening is U1's, in the flavour that the operation's code selects (R26). -/
theorem exec_of_isWidening (i : Instr) (s : State) (hi : IsWidening i) :
    exec i s = .next { s with yOut := h2f s.hIn (altOf (encodeOp i)) } := by
  have hop : narrows (encodeOp i) = false := by rcases hi with rfl | rfl <;> rfl
  rw [exec_eq, coreOut_widen _ _ hop, State.driveOutput_eq, State.hIn]

theorem exec_h2fIeee (s : State) : exec .h2fIeee s = .next { s with yOut := h2f s.hIn false } :=
  exec_of_isWidening .h2fIeee s (.inl rfl)

theorem exec_h2fAlt (s : State) : exec .h2fAlt s = .next { s with yOut := h2f s.hIn true } :=
  exec_of_isWidening .h2fAlt s (.inr rfl)

/-! ### One equation for each case of U1 -/

section
variable {h : Half} {alt : Bool}

theorem h2f_of_zero (he : halfExp h = 0#5) (hm : halfMant h = 0#10) :
    h2f h alt = packSingle (halfSign h) 0#8 0#23 := by
  simp [h2f, he, hm]

theorem h2f_of_subnormal (he : halfExp h = 0#5) (hm : halfMant h ≠ 0#10) :
    h2f h alt = packSingle (halfSign h) (renormExp h) (renormMant h) := by
  simp [h2f, he, hm]

theorem h2f_of_infinity (he : halfExp h = 31#5) (hm : halfMant h = 0#10) :
    h2f h false = packSingle (halfSign h) 0xFF#8 0#23 := by
  simp [h2f, he, hm]

theorem h2f_of_isHalfNaN (hn : IsHalfNaN h) :
    h2f h false =
      packSingle (halfSign h) 0xFF#8 (1#1 ++ (halfMant h).extractLsb' 0 9 ++ 0#13) := by
  obtain ⟨he, hm⟩ := hn
  simp [h2f, he, hm]

/-- A normal exponent is any but 0 and, in IEEE, 31 (R63, R66). -/
theorem h2f_of_normal (h0 : halfExp h ≠ 0#5) (h31 : halfExp h = 31#5 → alt = true) :
    h2f h alt = packSingle (halfSign h) (widenExp h) (halfMant h ++ 0#13) := by
  have hfin : ∀ P : Prop, ¬ (halfExp h = 31#5 ∧ alt = false ∧ P) :=
    fun _ ⟨he, ha, _⟩ => by simp [h31 he] at ha
  have hnan : ¬ (halfExp h = 31#5 ∧ alt = false) := fun ⟨he, ha⟩ => hfin True ⟨he, ha, trivial⟩
  simp only [h2f, h0, false_and, if_false, if_neg (hfin _), if_neg hnan]

end

/-- Every case of U1 packs the sign of the half. -/
@[simp] theorem singleSign_h2f (h : Half) (alt : Bool) : singleSign (h2f h alt) = halfSign h := by
  unfold h2f
  split_ifs <;> exact singleSign_packSingle _ _ _

/-! ### The fields of a widened normal half -/

theorem widenExp_toNat (h : Half) : (widenExp h).toNat = (halfExp h).toNat + 112 := by
  have := (halfExp h).isLt
  simp only [widenExp, BitVec.toNat_ofNat]; omega

/-- Zeros appended below shift the word up. -/
theorem toNat_append_zero {n : Nat} (x : BitVec n) (k : Nat) : (x ++ 0#k).toNat = x.toNat * 2 ^ k := by
  simp only [toNat_append_eq_add, BitVec.toNat_ofNat, Nat.zero_mod, Nat.add_zero]

theorem widenMant_toNat (h : Half) :
    (halfMant h ++ 0#13 : BitVec 23).toNat = (halfMant h).toNat * 2 ^ 13 :=
  toNat_append_zero (halfMant h) 13

/-! ### A single written as a number -/

theorem packSingle_eq_singleOf (s : BitVec 1) (e : BitVec 8) (m : BitVec 23) :
    packSingle s e m = singleOf s e.toNat m.toNat := by
  apply BitVec.eq_of_toNat_eq
  rw [singleOf, BitVec.toNat_ofNat, ← packSingle_toNat, Nat.mod_eq_of_lt (packSingle s e m).isLt]

/-- The exponent may be given within the mantissa argument, at its place. -/
theorem singleOf_exponent_in_mantissa (s : BitVec 1) (e m : Nat) :
    singleOf s 0 (e * 2 ^ 23 + m) = singleOf s e m := by
  simp only [singleOf, Nat.zero_mul, Nat.add_zero, Nat.add_assoc]

/-- A word with given fields is one of two, by its sign. -/
theorem packSingle_eq_ite (s : BitVec 1) (e : BitVec 8) (m : BitVec 23) :
    packSingle s e m = if s = 1#1 then packSingle 1#1 e m else packSingle 0#1 e m := by
  rcases BitVec.eq_zero_or_eq_one s with rfl | rfl <;> rfl

theorem h2f_of_normal_eq_singleOf {h : Half} {alt : Bool} (h0 : halfExp h ≠ 0#5)
    (h31 : halfExp h = 31#5 → alt = true) :
    h2f h alt = singleOf (halfSign h) ((halfExp h).toNat + 112) ((halfMant h).toNat * 2 ^ 13) := by
  rw [h2f_of_normal h0 h31, packSingle_eq_singleOf, widenExp_toNat, widenMant_toNat]

/-! ### The OR forms of R65 and R66 -/

/-- Setting the top bit of a 10-bit mantissa keeps its nine low bits. -/
theorem or_quietBit (m : BitVec 10) : 2 ^ 9 ||| m.toNat = 2 ^ 9 + m.toNat % 2 ^ 9 := by
  have hm := m.isLt
  have hor := Nat.two_pow_add_eq_or_of_lt (i := 9) (Nat.mod_lt m.toNat (by decide)) 1
  rw [Nat.mul_one] at hor
  by_cases hlow : m.toNat < 2 ^ 9
  · rw [Nat.mod_eq_of_lt hlow] at hor ⊢
    exact hor.symm
  · have hsplit : m.toNat = 2 ^ 9 ||| m.toNat % 2 ^ 9 := by rw [← hor]; omega
    rw [hor]
    nth_rw 1 [hsplit]
    rw [← Nat.or_assoc, Nat.or_self]

theorem quietMant_toNat (m : BitVec 10) :
    (1#1 ++ m.extractLsb' 0 9 ++ 0#13 : BitVec 23).toNat = (2 ^ 9 ||| m.toNat) * 2 ^ 13 := by
  have hlow : (m.extractLsb' 0 9).toNat = m.toNat % 2 ^ 9 := by simp [BitVec.extractLsb'_toNat]
  calc (1#1 ++ m.extractLsb' 0 9 ++ 0#13 : BitVec 23).toNat
    _ = (1#1 ++ m.extractLsb' 0 9).toNat * 2 ^ 13 := toNat_append_zero _ 13
    _ = (1 * 2 ^ 9 + m.toNat % 2 ^ 9) * 2 ^ 13 := by rw [toNat_append_eq_add, hlow]; rfl
    _ = (2 ^ 9 ||| m.toNat) * 2 ^ 13 := by rw [or_quietBit, Nat.one_mul]

theorem quietMant_quietBit (m : BitVec 10) :
    (1#1 ++ m.extractLsb' 0 9 ++ 0#13 : BitVec 23)[22] = true := by
  rw [← BitVec.getLsbD_eq_getElem, ← BitVec.testBit_toNat, quietMant_toNat,
    Nat.testBit_mul_two_pow, Nat.testBit_or, Nat.testBit_two_pow_self]
  rfl

/-- An OR with an exponent at its place is a sum, where the mantissa stays below that place. -/
theorem exponent_or_mantissa (e : Nat) {m : Nat} (hm : m < 2 ^ 23) :
    e * 2 ^ 23 ||| m = e * 2 ^ 23 + m := by
  rw [← Nat.shiftLeft_eq, Nat.shiftLeft_add_eq_or_of_lt hm]

theorem nanForm_eq_add (m : BitVec 10) :
    0x7F800000 ||| 0x00400000 ||| (m.toNat <<< 13) =
      0xFF * 2 ^ 23 + (1#1 ++ m.extractLsb' 0 9 ++ 0#13 : BitVec 23).toNat := by
  calc 0x7F800000 ||| 0x00400000 ||| (m.toNat <<< 13)
    _ = 0xFF * 2 ^ 23 ||| (2 ^ 9 <<< 13 ||| m.toNat <<< 13) := Nat.or_assoc ..
    _ = 0xFF * 2 ^ 23 ||| (1#1 ++ m.extractLsb' 0 9 ++ 0#13 : BitVec 23).toNat := by
      rw [← Nat.shiftLeft_or_distrib, Nat.shiftLeft_eq, quietMant_toNat]
    _ = _ := exponent_or_mantissa _ (BitVec.isLt _)

theorem altForm_eq_add (m : BitVec 10) :
    0x47800000 ||| (m.toNat <<< 13) = 143 * 2 ^ 23 + m.toNat * 2 ^ 13 := by
  have hm := m.isLt
  rw [Nat.shiftLeft_eq]
  exact exponent_or_mantissa 143 (by omega)

/-! ### Classes and magnitudes of packed singles -/

theorem singleClass_packSingle_normal (s : BitVec 1) {e : BitVec 8} (m : BitVec 23)
    (h0 : e ≠ 0#8) (h255 : e ≠ 255#8) : singleClass (packSingle s e m) = .normal := by
  simp [singleClass, h0, h255]

theorem singleClass_packSingle_quietNaN (s : BitVec 1) {m : BitVec 23} (hq : m[22] = true) :
    singleClass (packSingle s 0xFF#8 m) = .quietNaN := by
  have hm : m ≠ 0#23 := fun h => by simp [h] at hq
  simp [singleClass, hm, hq]

theorem singleUnits_packSingle_normal (s : BitVec 1) {e : BitVec 8} (m : BitVec 23) (h0 : e ≠ 0#8) :
    singleUnits (packSingle s e m) = (2 ^ 23 + m.toNat) * 2 ^ (e.toNat - 1) := by
  simp [singleUnits, h0]

/-! ### The obligations -/

/-- Settles O13: whichever the flavour, U1 packs the sign of the half (`singleSign_h2f`). -/
theorem wideningKeepsTheSign : Obligations.WideningKeepsTheSign :=
  fun i s hi => ⟨_, exec_of_isWidening i s hi, singleSign_h2f _ _⟩

/-- Settles O14: both flavours test for a zero first, and of a word without exponent and mantissa the sign
is all that is left. -/
theorem zeroWidensToSignedZero : Obligations.ZeroWidensToSignedZero := by
  intro i s hi he hm
  rw [exec_of_isWidening i s hi, h2f_of_zero he hm, packSingle_eq_ite]
  rfl

/-- Settles O16: exponents 1 to 30 are normal in both flavours. -/
theorem normalsWidenByRebiasing : Obligations.NormalsWidenByRebiasing := by
  intro i s hi hlo hhi
  have h0 : halfExp s.hIn ≠ 0#5 := fun h => by simp [h] at hlo
  have h31 : halfExp s.hIn ≠ 31#5 := fun h => by simp [h] at hhi
  refine ⟨_, exec_of_isWidening i s hi, h2f_of_normal_eq_singleOf h0 (absurd · h31), ?_⟩
  rw [h2f_of_normal h0 (absurd · h31), singleExp_packSingle, widenExp_toNat]
  omega

/-- Settles O17: the exponent field is all ones and the mantissa 0, so the sign decides the word. -/
theorem ieeeInfinityWidensToInfinity : Obligations.IeeeInfinityWidensToInfinity := by
  intro s he hm
  rw [exec_h2fIeee, h2f_of_infinity he hm, packSingle_eq_ite]
  rfl

/-- Settles O18: the three parts of the mantissa stand where the concatenation puts them; in the OR form the
quiet bit takes in the top bit of `hm` (`or_quietBit`). -/
theorem ieeeNaNWidensToAQuietNaN : Obligations.IeeeNaNWidensToAQuietNaN := by
  intro s hn
  refine ⟨_, exec_h2fIeee s, ?_, ?_, ?_⟩ <;> rw [h2f_of_isHalfNaN hn]
  · apply BitVec.eq_of_toNat_eq
    simp only [packSingle, toNat_append_eq_add]
    ring
  · rw [nanForm_eq_add, singleOf_exponent_in_mantissa, packSingle_eq_singleOf]
    rfl
  · exact singleClass_packSingle_quietNaN _ (quietMant_quietBit _)

/-- Settles O19: in alt, 31 is re-biased as any normal exponent is, to 143; the magnitude is then 1024 to
2047 units of 2^6. -/
theorem altExponent31WidensAsANormal : Obligations.AltExponent31WidensAsANormal := by
  intro s he
  have h0 : halfExp s.hIn ≠ 0#5 := by simp [he]
  have hE : widenExp s.hIn = 143#8 := by simp [widenExp, he]
  have hpack := h2f_of_normal h0 fun _ => (rfl : true = true)
  have hform : h2f s.hIn true = singleOf (halfSign s.hIn) 143 ((halfMant s.hIn).toNat * 2 ^ 13) := by
    rw [h2f_of_normal_eq_singleOf h0 fun _ => rfl, he]
    rfl
  have hunits : singleUnits (h2f s.hIn true) = (2 ^ 10 + (halfMant s.hIn).toNat) * 2 ^ 155 := by
    rw [hpack, hE, singleUnits_packSingle_normal _ _ (by decide), widenMant_toNat]
    simp only [BitVec.reduceToNat]
    ring
  have hm := (halfMant s.hIn).isLt
  refine ⟨_, exec_h2fAlt s, hform, ?_, ?_, ?_⟩
  · rw [altForm_eq_add, singleOf_exponent_in_mantissa, hform]
  · rw [hpack, hE]
    exact singleClass_packSingle_normal _ _ (by decide) (by decide)
  · rw [hunits, units, units]
    omega

end Sys2Proof.Machine
end

section
/-! PROOFS of the family 41_fp32_to_fp16.md: the narrowing operations, case by case (R74 to R84). -/

namespace Sys2Proof.Machine

/-! ### What a narrowing operation answers -/

/-- The output of a narrowing is U2's, in the flavour that the operation's code selects (R26). -/
theorem exec_of_isNarrowing (i : Instr) (s : State) (hi : IsNarrowing i) :
    exec i s = .next { s with yOut := zext32 (f2h s.fIn (altOf (encodeOp i))) } := by
  have hop : narrows (encodeOp i) = true := by rcases hi with rfl | rfl <;> rfl
  rw [exec_eq, coreOut_narrow _ _ hop, State.driveOutput_eq]
  rfl

theorem zext32_eq_append (h : Half) : zext32 h = 0#16 ++ h := by
  apply BitVec.eq_of_toNat_eq
  rw [zext32_toNat, toNat_append_eq_add]
  simp

theorem zext32_packHalf (s : BitVec 1) (m : BitVec 15) :
    zext32 (packHalf s m) = halfResult s m.toNat := by
  have hlt := (packHalf s m).isLt
  apply BitVec.eq_of_toNat_eq
  rw [zext32_toNat, halfResult, BitVec.toNat_ofNat, ← packHalf_toNat, Nat.mod_eq_of_lt (by omega)]

/-! ### The magnitude does not see the sign (R74) -/

/-- Exponent and mantissa are parts of the magnitude `f[30:0]`. -/
theorem fields_eq_of_singleMagnitude_eq {f g : Single} (h : singleMagnitude f = singleMagnitude g) :
    singleExp f = singleExp g ∧ singleMant f = singleMant g := by
  have hmag := congrArg BitVec.toNat h
  rw [singleMagnitude_toNat, singleMagnitude_toNat] at hmag
  constructor <;> apply BitVec.eq_of_toNat_eq
  · rw [singleExp_toNat, singleExp_toNat]; omega
  · rw [singleMant_toNat, singleMant_toNat]; omega

theorem narrowMag_congr {f g : Single} (h : singleMagnitude f = singleMagnitude g) (alt : Bool) :
    narrowMag f alt = narrowMag g alt := by
  obtain ⟨he, hm⟩ := fields_eq_of_singleMagnitude_eq h
  unfold narrowMag finiteMag normalTrunc normalGuard normalSticky subnormalTrunc subnormalGuard
    subnormalSticky narrowShift significand hexp
  rw [he, hm]

theorem singleMagnitude_append (s : BitVec 1) (m : BitVec 31) :
    singleMagnitude (s ++ m : Single) = m := by
  have hm := m.isLt
  apply BitVec.eq_of_toNat_eq
  rw [singleMagnitude_toNat, toNat_append_eq_add]; omega

/-! ### One equation for each case of U2 -/

section
variable {f : Single} {alt : Bool}

theorem narrowMag_of_infinity (he : singleExp f = 255#8) (hm : singleMant f = 0#23) :
    narrowMag f alt = overflowMag alt := by
  simp [narrowMag, he, hm]

theorem narrowMag_of_isFinite (hf : IsFinite f) :
    narrowMag f alt = saturateAlt alt (finiteMag f alt) := by
  simp [narrowMag, hf]

theorem finiteMag_of_overflow (h : maxNormalExp alt < hexp f) :
    finiteMag f alt = overflowMag alt := by
  simp [finiteMag, h]

theorem finiteMag_of_normal (hlo : 1 ≤ hexp f) (hhi : hexp f ≤ maxNormalExp alt) :
    finiteMag f alt = rne (normalTrunc f) (normalGuard f) (normalSticky f) := by
  simp [finiteMag, hlo, Int.not_lt.mpr hhi]

theorem not_maxNormalExp_lt (h : hexp f ≤ 0) : ¬ maxNormalExp alt < hexp f := by
  cases alt <;> simp only [maxNormalExp] <;> omega

theorem finiteMag_of_tiny (h : hexp f ≤ 0) (hsh : 24 < narrowShift f) : finiteMag f alt = 0#16 := by
  have h1 : ¬ 1 ≤ hexp f := by omega
  simp [finiteMag, not_maxNormalExp_lt h, h1, hsh]

theorem finiteMag_of_subnormal (h : hexp f ≤ 0) (hsh : narrowShift f ≤ 24) :
    finiteMag f alt = rne (subnormalTrunc f) (subnormalGuard f) (subnormalSticky f) := by
  have h1 : ¬ 1 ≤ hexp f := by omega
  simp [finiteMag, not_maxNormalExp_lt h, h1, Nat.not_lt.mpr hsh]

theorem saturateAlt_toNat (mag : BitVec 16) :
    (saturateAlt alt mag).toNat = if alt = true then min 0x7FFF mag.toNat else mag.toNat := by
  cases alt with
  | false => rfl
  | true =>
    simp only [saturateAlt, BitVec.lt_def, BitVec.toNat_ofNat, true_and, if_true]
    split_ifs <;> simp <;> omega

/-- A finite single of half-biased exponent at most 31 is one by its exponent alone. -/
theorem isFinite_of_hexp_le (h : hexp f ≤ 31) : IsFinite f := fun he => by
  rw [hexp_eq, he] at h
  simp at h

/-- Where nothing is beyond the greatest pattern, the alt saturation changes nothing. -/
theorem narrowMag_eq_finiteMag (hf : IsFinite f) (h : (finiteMag f alt).toNat ≤ 0x7FFF) :
    narrowMag f alt = finiteMag f alt := by
  apply BitVec.eq_of_toNat_eq
  rw [narrowMag_of_isFinite hf, saturateAlt_toNat, Nat.min_eq_right h, ite_self]

end

/-! ### What U2 asks of U3, as a number -/

/-- x / 2^k rounded to the nearest integer, a tie going to the even one: the quotient, and the increment
`g and (s or t[0])` from the bits below it (R92, R93). -/
def roundShift (x k : Nat) : Nat :=
  x / 2 ^ k + if x / 2 ^ (k - 1) % 2 = 1 ∧ (x % 2 ^ (k - 1) ≠ 0 ∨ x / 2 ^ k % 2 = 1) then 1 else 0

theorem roundShift_le (x k : Nat) : roundShift x k ≤ x / 2 ^ k + 1 := by
  unfold roundShift; split <;> omega

theorem roundIncrement_eq_true_iff (t : BitVec 15) (g s : Bool) :
    roundIncrement t g s = true ↔ g = true ∧ (s = true ∨ t.toNat % 2 = 1) := by
  have hodd : t[0] = true ↔ t.toNat % 2 = 1 := by
    rw [← BitVec.getLsbD_eq_getElem, ← BitVec.testBit_toNat, Nat.testBit_zero, decide_eq_true_iff]
  rw [roundIncrement, Bool.and_eq_true, Bool.or_eq_true, hodd]

/-- U3 rounds x / 2^k where its ports carry the quotient, the bit below it and whether any lower bit is
set. -/
theorem rne_toNat_eq_roundShift {t : BitVec 15} {g s : Bool} {x k : Nat} (ht : t.toNat = x / 2 ^ k)
    (hg : g = true ↔ x / 2 ^ (k - 1) % 2 = 1) (hs : s = true ↔ x % 2 ^ (k - 1) ≠ 0) :
    (rne t g s).toNat = roundShift x k := by
  have hinc := roundIncrement_eq_true_iff t g s
  rw [hg, hs, ht] at hinc
  rw [rne_toNat, ht, roundShift]
  cases h : roundIncrement t g s with
  | false => rw [if_neg fun hc => by simp [hinc.mpr hc] at h]; rfl
  | true => rw [if_pos (hinc.mp h)]; rfl

section
variable {f : Single} {alt : Bool}

theorem normalTrunc_toNat (hlo : 1 ≤ hexp f) (hhi : hexp f ≤ 31) :
    (normalTrunc f).toNat = ((singleExp f).toNat - 112) * 2 ^ 10 + (singleMant f).toNat / 2 ^ 13 := by
  have hm := (singleMant f).isLt
  rw [hexp_eq] at hlo hhi
  simp only [normalTrunc, toNat_append_eq_add, BitVec.toNat_ofInt, BitVec.extractLsb'_toNat,
    Nat.shiftRight_eq_div_pow, hexp_eq]
  omega

theorem normalGuard_eq_true_iff : normalGuard f = true ↔ (singleMant f).toNat / 2 ^ 12 % 2 = 1 := by
  rw [normalGuard, ← BitVec.getLsbD_eq_getElem, ← BitVec.testBit_toNat, Nat.testBit_eq_decide_div_mod_eq,
    decide_eq_true_iff]

theorem normalSticky_eq_true_iff : normalSticky f = true ↔ (singleMant f).toNat % 2 ^ 12 ≠ 0 := by
  rw [normalSticky, bne_iff_ne, ne_eq, ← BitVec.toNat_inj]
  simp [BitVec.extractLsb'_toNat]

/-- The normal range (R79): `{hexp, fm}` loses its 13 low bits. -/
theorem finiteMag_toNat_of_normal (hlo : 1 ≤ hexp f) (hhi : hexp f ≤ maxNormalExp alt) :
    (finiteMag f alt).toNat =
      roundShift (((singleExp f).toNat - 112) * 2 ^ 23 + (singleMant f).toNat) 13 := by
  have h31 : hexp f ≤ 31 := by cases alt <;> simp only [maxNormalExp] at hhi <;> omega
  rw [finiteMag_of_normal hlo hhi]
  apply rne_toNat_eq_roundShift
  · rw [normalTrunc_toNat hlo h31]; omega
  · rw [normalGuard_eq_true_iff]; omega
  · rw [normalSticky_eq_true_iff]; omega

theorem narrowShift_ge (h : hexp f ≤ 0) : 14 ≤ narrowShift f := by
  unfold narrowShift; omega

/-- `M >> sh` is at most 0x3FF: the subnormal branch shifts the 24 bits of M by 14 or more (R81). -/
theorem significand_div_le (h : hexp f ≤ 0) : significand f / 2 ^ narrowShift f ≤ 0x3FF := by
  have hM := significand_lt f
  calc significand f / 2 ^ narrowShift f
    _ ≤ significand f / 2 ^ 14 :=
      Nat.div_le_div_left (Nat.pow_le_pow_right (by decide) (narrowShift_ge h)) (by decide)
    _ ≤ 0x3FF := by omega

theorem subnormalTrunc_toNat (h : hexp f ≤ 0) :
    (subnormalTrunc f).toNat = significand f / 2 ^ narrowShift f := by
  have hle := significand_div_le h
  rw [subnormalTrunc, BitVec.toNat_ofNat, Nat.shiftRight_eq_div_pow, Nat.mod_eq_of_lt (by omega)]

theorem subnormalGuard_eq_true_iff :
    subnormalGuard f = true ↔ significand f / 2 ^ (narrowShift f - 1) % 2 = 1 := by
  rw [subnormalGuard, beq_iff_eq, Nat.and_one_is_mod, Nat.shiftRight_eq_div_pow]

theorem subnormalSticky_eq_true_iff :
    subnormalSticky f = true ↔ significand f % 2 ^ (narrowShift f - 1) ≠ 0 := by
  rw [subnormalSticky, bne_iff_ne, Nat.and_two_pow_sub_one_eq_mod]

/-- The subnormal range (R81): the significand loses its `sh` low bits. -/
theorem finiteMag_toNat_of_subnormal (h : hexp f ≤ 0) (hsh : narrowShift f ≤ 24) :
    (finiteMag f alt).toNat = roundShift (significand f) (narrowShift f) := by
  rw [finiteMag_of_subnormal h hsh]
  exact rne_toNat_eq_roundShift (subnormalTrunc_toNat h) subnormalGuard_eq_true_iff
    subnormalSticky_eq_true_iff

/-! ### Bounds of the magnitude -/

theorem finiteMag_le_of_hexp_nonpos (h : hexp f ≤ 0) : (finiteMag f alt).toNat ≤ 0x400 := by
  by_cases hsh : narrowShift f ≤ 24
  · rw [finiteMag_toNat_of_subnormal h hsh]
    exact (roundShift_le _ _).trans (Nat.add_le_add_right (significand_div_le h) 1)
  · rw [finiteMag_of_tiny h (by omega)]
    decide

theorem finiteMag_ieee_le : (finiteMag f false).toNat ≤ 0x7C00 := by
  by_cases h30 : 30 < hexp f
  · rw [finiteMag_of_overflow (alt := false) h30]
    decide
  by_cases h1 : 1 ≤ hexp f
  · have hle := roundShift_le (((singleExp f).toNat - 112) * 2 ^ 23 + (singleMant f).toNat) 13
    have hm := (singleMant f).isLt
    rw [finiteMag_toNat_of_normal (alt := false) h1 (Int.not_lt.mp h30)]
    rw [hexp_eq] at h30
    omega
  · exact (finiteMag_le_of_hexp_nonpos (by omega)).trans (by decide)

theorem saturateAlt_finiteMag_le : (saturateAlt alt (finiteMag f alt)).toNat ≤ 0x7FFF := by
  rw [saturateAlt_toNat]
  cases alt with
  | false => exact finiteMag_ieee_le.trans (by decide)
  | true => exact Nat.min_le_left _ _

theorem narrowMag_le : (narrowMag f alt).toNat ≤ 0x7FFF := by
  unfold narrowMag
  split_ifs
  · cases alt <;> decide
  · cases alt <;> decide
  · exact saturateAlt_finiteMag_le

end

/-! ### The answer as sign and magnitude -/

/-- No bit of the magnitude is lost when the sign is reattached. -/
theorem zext32_f2h (f : Single) (alt : Bool) :
    zext32 (f2h f alt) = halfResult (singleSign f) (narrowMag f alt).toNat := by
  have hle := narrowMag_le (f := f) (alt := alt)
  rw [f2h, zext32_packHalf, BitVec.extractLsb'_toNat, Nat.shiftRight_zero, Nat.mod_eq_of_lt (by omega)]

/-- A narrowing answers the magnitude of U2 with the sign of its operand. -/
theorem exec_eq_halfResult {i : Instr} {s : State} (hi : IsNarrowing i) {m : Nat}
    (hm : (narrowMag s.fIn (altOf (encodeOp i))).toNat = m) :
    exec i s = .next { s with yOut := halfResult (singleSign s.fIn) m } := by
  rw [exec_of_isNarrowing i s hi, zext32_f2h, hm]

theorem exec_f2hIeee_eq {s : State} {m : Nat} (hm : (narrowMag s.fIn false).toNat = m) :
    exec .f2hIeee s = .next { s with yOut := halfResult (singleSign s.fIn) m } :=
  exec_eq_halfResult (.inl rfl) hm

theorem exec_f2hAlt_eq {s : State} {m : Nat} (hm : (narrowMag s.fIn true).toNat = m) :
    exec .f2hAlt s = .next { s with yOut := halfResult (singleSign s.fIn) m } :=
  exec_eq_halfResult (.inr rfl) hm

/-! ### Magnitudes of singles against their exponent field -/

theorem singleUnits_of_exp_pos {f : Single} (h : 1 ≤ (singleExp f).toNat) :
    singleUnits f = (2 ^ 23 + (singleMant f).toNat) * 2 ^ ((singleExp f).toNat - 1) := by
  have h0 : singleExp f ≠ 0#8 := fun he => by simp [he] at h
  simp only [singleUnits, h0, if_false]

theorem two_pow_le_singleUnits {f : Single} (h : 1 ≤ (singleExp f).toNat) :
    2 ^ ((singleExp f).toNat + 22) ≤ singleUnits f := by
  calc 2 ^ ((singleExp f).toNat + 22)
    _ = 2 ^ 23 * 2 ^ ((singleExp f).toNat - 1) := by rw [← Nat.pow_add]; congr 1; omega
    _ ≤ (2 ^ 23 + (singleMant f).toNat) * 2 ^ ((singleExp f).toNat - 1) :=
      Nat.mul_le_mul_right _ (Nat.le_add_right _ _)
    _ = singleUnits f := (singleUnits_of_exp_pos h).symm

/-- The bound holds of a zero and a subnormal too, whose exponent field is 0. -/
theorem singleUnits_lt (f : Single) : singleUnits f < 2 ^ ((singleExp f).toNat + 23) := by
  have hm := (singleMant f).isLt
  by_cases h0 : singleExp f = 0#8
  · simpa [singleUnits, h0] using hm
  · have h1 : 1 ≤ (singleExp f).toNat := Nat.pos_of_ne_zero fun h => h0 (BitVec.eq_of_toNat_eq h)
    calc singleUnits f
      _ = (2 ^ 23 + (singleMant f).toNat) * 2 ^ ((singleExp f).toNat - 1) := singleUnits_of_exp_pos h1
      _ < 2 ^ 24 * 2 ^ ((singleExp f).toNat - 1) :=
        Nat.mul_lt_mul_of_pos_right (by omega) (Nat.two_pow_pos _)
      _ = 2 ^ ((singleExp f).toNat + 23) := by rw [← Nat.pow_add]; congr 1; omega

/-- The exponent field is at least k if and only if the magnitude is at least the least one of exponent
k. -/
theorem le_singleExp_iff (f : Single) {k : Nat} (hk : 1 ≤ k) :
    k ≤ (singleExp f).toNat ↔ 2 ^ (k + 22) ≤ singleUnits f := by
  constructor
  · intro h
    exact (Nat.pow_le_pow_right (by decide) (by omega)).trans (two_pow_le_singleUnits (hk.trans h))
  · intro h
    have hlt := (Nat.pow_lt_pow_iff_right (by decide)).mp (h.trans_lt (singleUnits_lt f))
    omega

/-- The same for the half-biased exponent, `hexp = fe - 112`. -/
theorem le_hexp_iff (f : Single) {e : Int} {k : Nat} (hk : 1 ≤ k) (he : e + 112 = k) :
    e ≤ hexp f ↔ 2 ^ (k + 22) ≤ singleUnits f := by
  rw [← le_singleExp_iff f hk, hexp_eq]
  omega

/-! ### Overflow by rounding (R82) -/

/-- In the last normal exponent of IEEE, the tie halfway between 0x7BFF and 0x7C00 is the first to
pass 0x7BFF, an odd pattern. -/
theorem roundShift_normal_le_iff (x : Nat) : roundShift x 13 ≤ 0x7BFF ↔ x < 0x7BFF * 2 ^ 13 + 2 ^ 12 := by
  unfold roundShift
  split <;> omega

/-- 65520 is 4095 * 2^12 of the significand's units at exponent 142. -/
theorem singleUnits_lt_65520_iff {f : Single} (he : (singleExp f).toNat = 142) :
    singleUnits f < units 65520 ↔ (singleMant f).toNat < 2047 * 2 ^ 12 := by
  rw [singleUnits_of_exp_pos (by omega), he, units]
  omega

/-- Below 2^16, rounding stays below the infinity exactly for magnitudes below 65520. -/
theorem finiteMag_ieee_le_iff {f : Single} (h : hexp f ≤ 30) :
    (finiteMag f false).toNat ≤ 0x7BFF ↔ singleUnits f < units 65520 := by
  by_cases h30 : hexp f = 30
  · have he : (singleExp f).toNat = 142 := by rw [hexp_eq] at h30; omega
    rw [finiteMag_toNat_of_normal (alt := false) (by omega) h, roundShift_normal_le_iff,
      singleUnits_lt_65520_iff he, he]
    omega
  have hsmall : singleUnits f < units 65520 := by
    have hiff := le_hexp_iff f (e := 30) (k := 142) (by decide) (by decide)
    have hlt : ¬ 2 ^ (142 + 22) ≤ singleUnits f := fun hc => h30 (by omega)
    rw [units]
    omega
  refine iff_of_true ?_ hsmall
  by_cases h1 : 1 ≤ hexp f
  · rw [finiteMag_toNat_of_normal (alt := false) h1 h, roundShift_normal_le_iff]
    have hm := (singleMant f).isLt
    rw [hexp_eq] at h h30
    omega
  · exact (finiteMag_le_of_hexp_nonpos (by omega)).trans (by decide)

theorem exec_f2hIeee_of_isFinite {s : State} (hf : IsFinite s.fIn) :
    exec .f2hIeee s = .next { s with
      yOut := halfResult (singleSign s.fIn) (finiteMag s.fIn false).toNat } :=
  exec_f2hIeee_eq (by rw [narrowMag_eq_finiteMag hf (finiteMag_ieee_le.trans (by decide))])

/-! ### The obligations -/

/-- Settles O32: the function of the magnitude is U2's magnitude of the word with sign bit 0; it is the same
for the operand, because no case looks at the sign (`narrowMag_congr`). -/
theorem narrowingWorksOnTheMagnitude : Obligations.NarrowingWorksOnTheMagnitude := by
  intro i hi
  refine ⟨fun m => (narrowMag (0#1 ++ m) (altOf (encodeOp i))).extractLsb' 0 15, fun s => ?_⟩
  have hmag : narrowMag (0#1 ++ singleMagnitude s.fIn) (altOf (encodeOp i)) =
      narrowMag s.fIn (altOf (encodeOp i)) := narrowMag_congr (singleMagnitude_append _ _) _
  rw [exec_of_isNarrowing i s hi, zext32_eq_append, f2h, packHalf, ← hmag]

/-- Settles O34: an infinity and an overflow take the same constant, and the bound is the least magnitude
of exponent field 143 (`le_singleExp_iff`). -/
theorem ieeeInfinityAndOverflowNarrowToInfinity :
    Obligations.IeeeInfinityAndOverflowNarrowToInfinity := by
  refine ⟨fun s he hm => ⟨?_, ?_⟩, fun s hf h => ?_, fun f _ => ⟨?_, ?_⟩⟩
  · rw [hexp_eq, he]; rfl
  · exact exec_f2hIeee_eq (by rw [narrowMag_of_infinity he hm]; rfl)
  · have hover : maxNormalExp false < hexp s.fIn := h
    rw [exec_f2hIeee_of_isFinite hf, finiteMag_of_overflow hover]
    rfl
  · rw [hexp_eq]; omega
  · exact le_hexp_iff f (k := 143) (by decide) (by decide)

/-- Settles O35: as in IEEE, with the constant and the last exponent of alt. -/
theorem altInfinityAndOverflowSaturate : Obligations.AltInfinityAndOverflowSaturate := by
  refine ⟨fun s he hm => ?_, fun s hf h => ?_, fun f _ => ?_⟩
  · exact exec_f2hAlt_eq (by rw [narrowMag_of_infinity he hm]; rfl)
  · have hover : maxNormalExp true < hexp s.fIn := h
    exact exec_f2hAlt_eq (by rw [narrowMag_of_isFinite hf, finiteMag_of_overflow hover]; rfl)
  · exact le_hexp_iff f (k := 144) (by decide) (by decide)

/-- Settles O37: the third case of `finiteMag` gives the magnitude 0; each of its bounds is `fe ≤ 101`. -/
theorem tinySinglesNarrowToSignedZero : Obligations.TinySinglesNarrowToSignedZero := by
  constructor
  · intro i s hi h0 hsh
    have hmag : finiteMag s.fIn (altOf (encodeOp i)) = 0#16 :=
      finiteMag_of_tiny h0 (by unfold narrowShift; omega)
    apply exec_eq_halfResult hi
    rw [narrowMag_eq_finiteMag (isFinite_of_hexp_le (by omega)) (by rw [hmag]; decide), hmag]
    rfl
  · intro f
    refine ⟨by omega, ?_, fun _ _ => ?_, fun h0 => ?_⟩
    · rw [hexp_eq]; omega
    · have hiff := le_hexp_iff f (e := -10) (k := 102) (by decide) (by decide)
      omega
    · rw [hexp_eq, h0]; decide

/-- Settles O38: the statement's t and inc add up to `roundShift M sh`, at most 0x400, so nothing
saturates. -/
theorem subnormalRangeNarrowsByRounding : Obligations.SubnormalRangeNarrowsByRounding := by
  intro i s sh M t inc hi hlo hhi hsh hM ht hinc
  obtain rfl : sh = narrowShift s.fIn := by unfold narrowShift; omega
  obtain rfl : M = significand s.fIn := hM
  subst ht hinc
  have hle : narrowShift s.fIn ≤ 24 := by omega
  refine ⟨narrowShift_ge hhi, hle, significand_div_le hhi, exec_eq_halfResult hi ?_⟩
  rw [narrowMag_eq_finiteMag (isFinite_of_hexp_le (by omega))
    ((finiteMag_le_of_hexp_nonpos hhi).trans (by decide)), finiteMag_toNat_of_subnormal hhi hle, roundShift]

/-- Settles O39: below 2^16 the magnitude exceeds 0x7BFF exactly from 65520 on (`finiteMag_ieee_le_iff`),
and it never exceeds 0x7C00. -/
theorem ieeeOverflowByRoundingStartsAt65520 : Obligations.IeeeOverflowByRoundingStartsAt65520 := by
  intro s hf
  have hiff30 := le_hexp_iff s.fIn (e := 30) (k := 142) (by decide) (by decide)
  have hiff31 := le_hexp_iff s.fIn (e := 31) (k := 143) (by decide) (by decide)
  have hmax := finiteMag_ieee_le (f := s.fIn)
  refine ⟨fun hlo hhi => ?_, fun hlt => ?_, fun hmag => ?_⟩
  · have h30 : hexp s.fIn = 30 := by
      rw [units] at hlo hhi
      omega
    have hover := (finiteMag_ieee_le_iff h30.le).not.mpr (Nat.not_lt.mpr hlo)
    have hinf : finiteMag s.fIn false = 0x7C00#16 :=
      BitVec.eq_of_toNat_eq (Nat.le_antisymm hmax (Nat.not_le.mp hover))
    rw [exec_f2hIeee_of_isFinite hf, hinf]
    exact ⟨⟨h30, rfl⟩, rfl⟩
  · have h30 : hexp s.fIn ≤ 30 := by
      rw [units] at hlt
      omega
    exact ⟨_, (finiteMag_ieee_le_iff h30).mpr hlt, exec_f2hIeee_of_isFinite hf⟩
  · obtain ⟨he, hm⟩ := fields_eq_of_singleMagnitude_eq (g := 0x477FEFFF#32) hmag
    have h30 : hexp s.fIn = 30 := by rw [hexp_eq, he]; rfl
    rw [exec_f2hIeee_of_isFinite hf,
      finiteMag_toNat_of_normal (alt := false) (by omega) h30.le, he, hm]
    rfl

end Sys2Proof.Machine
end

section
/-! PROOFS of the family 42_rounding_engine.md: the increment of U3 (R92), its ties (R94), and the guard and
sticky bits that U2 forms (R93). -/

namespace Sys2Proof.Machine

/-! ### A bit of a word, in numbers -/

theorem getElem_eq_true_iff {n : Nat} (x : BitVec n) {i : Nat} (hi : i < n) :
    x[i] = true ↔ x.toNat / 2 ^ i % 2 = 1 := by
  rw [BitVec.getElem_eq_testBit_toNat, Nat.testBit_eq_decide_div_mod_eq, decide_eq_true_iff]

theorem getElem_zero_eq_false_iff {n : Nat} (x : BitVec n) (hn : 0 < n) :
    x[0] = false ↔ x.toNat % 2 = 0 := by
  rw [← Bool.not_eq_true, getElem_eq_true_iff, Nat.pow_zero, Nat.div_one, Nat.mod_two_not_eq_one]

/-! ### The sum of U3 (R92, R94) -/

theorem rne_toNat_eq_ite (t : BitVec 15) (g s : Bool) :
    (rne t g s).toNat = t.toNat + if g = true ∧ (s = true ∨ t.toNat % 2 = 1) then 1 else 0 := by
  rw [rne_toNat, Bool.toNat, Bool.cond_eq_ite]
  simp only [roundIncrement_eq_true_iff]

/-- The sum reaches bit 15 from the greatest t alone, and that t is odd, so g decides there. -/
theorem rne_carry_iff (t : BitVec 15) (g s : Bool) :
    (rne t g s)[15] = true ↔ t = 0x7FFF#15 ∧ g = true := by
  have hlt := t.isLt
  have hmax : t = 0x7FFF#15 ↔ t.toNat = 0x7FFF := BitVec.toNat_inj.symm
  rw [getElem_eq_true_iff, rne_toNat_eq_ite, hmax]
  split_ifs with hinc
  · obtain ⟨hg, -⟩ := hinc
    rw [and_iff_left hg]
    omega
  · exact iff_of_false (by omega) fun ⟨ht, hg⟩ => hinc ⟨hg, .inr (by rw [ht])⟩

/-- On a tie the increment is the low bit of t. -/
theorem rne_tie_toNat (t : BitVec 15) : (rne t true false).toNat = t.toNat + t.toNat % 2 := by
  simp only [rne_toNat_eq_ite, Bool.false_eq_true, false_or, true_and]
  split_ifs <;> omega

/-! ### The bits that are cut off (R93) -/

/-- The low k + 1 bits are bit k and the bits below it, so bit k alone weighs a half of 2^(k + 1). -/
theorem guardBit_iff_half_le (x k : Nat) :
    x / 2 ^ k % 2 = 1 ↔ 2 ^ (k + 1) ≤ 2 * (x % 2 ^ (k + 1)) := by
  have hr : x % 2 ^ k < 2 ^ k := Nat.mod_lt _ (Nat.two_pow_pos k)
  rw [Nat.mod_pow_succ, Nat.pow_succ]
  rcases Nat.mod_two_eq_zero_or_one (x / 2 ^ k) with h | h <;> rw [h] <;> omega

theorem stickyBits_iff_ne_zero_ne_half (x k : Nat) :
    x % 2 ^ k ≠ 0 ↔ x % 2 ^ (k + 1) ≠ 0 ∧ 2 * (x % 2 ^ (k + 1)) ≠ 2 ^ (k + 1) := by
  have hr : x % 2 ^ k < 2 ^ k := Nat.mod_lt _ (Nat.two_pow_pos k)
  rw [Nat.mod_pow_succ, Nat.pow_succ]
  rcases Nat.mod_two_eq_zero_or_one (x / 2 ^ k) with h | h <;> rw [h] <;> omega

/-- A remainder by 2^k is the OR of the k low bits. -/
theorem mod_two_pow_ne_zero_iff (x k : Nat) : x % 2 ^ k ≠ 0 ↔ ∃ j < k, x.testBit j = true := by
  constructor
  · intro h
    obtain ⟨j, hj⟩ := Nat.exists_testBit_of_ne_zero h
    rw [Nat.testBit_mod_two_pow, Bool.and_eq_true, decide_eq_true_iff] at hj
    exact ⟨j, hj⟩
  · rintro ⟨j, hlt, hj⟩ h0
    have hbit : (x % 2 ^ k).testBit j = true := by rw [Nat.testBit_mod_two_pow, hj]; simpa using hlt
    simp [h0] at hbit

/-- What a guard and a sticky bit of x / 2^k are as bits of x, and what they say of the fraction
x % 2^k / 2^k. -/
theorem guard_sticky_of_shift {x k : Nat} {g s : Bool} (hk : 1 ≤ k)
    (hg : g = true ↔ x / 2 ^ (k - 1) % 2 = 1) (hs : s = true ↔ x % 2 ^ (k - 1) ≠ 0) :
    (g = x.testBit (k - 1) ∧ (s = true ↔ ∃ j : Nat, j + 2 ≤ k ∧ x.testBit j = true)) ∧
    (g = true ↔ 2 ^ k ≤ 2 * (x % 2 ^ k)) ∧
    (s = true ↔ x % 2 ^ k ≠ 0 ∧ 2 * (x % 2 ^ k) ≠ 2 ^ k) := by
  obtain ⟨k, rfl⟩ := Nat.exists_eq_add_of_le' hk
  rw [Nat.add_sub_cancel] at hg hs ⊢
  refine ⟨⟨?_, ?_⟩, hg.trans (guardBit_iff_half_le x k), hs.trans (stickyBits_iff_ne_zero_ne_half x k)⟩
  · rw [Bool.eq_iff_iff, hg, Nat.testBit_eq_decide_div_mod_eq, decide_eq_true_iff]
  · simpa only [Nat.reduceLeDiff, Nat.lt_iff_add_one_le] using hs.trans (mod_two_pow_ne_zero_iff x k)

/-! ### What U2 presents to U3 -/

section
variable {f : Single} {alt : Bool} {p : RoundPorts}

theorem roundPorts_of_normal (hp : roundPorts f alt = some p) (h : 1 ≤ hexp f) :
    hexp f ≤ 31 ∧ p = ⟨normalTrunc f, normalGuard f, normalSticky f⟩ := by
  unfold roundPorts at hp
  split_ifs at hp with hover
  have hmax : hexp f ≤ maxNormalExp alt := Int.not_lt.mp fun hc => hover (.inr hc)
  refine ⟨?_, (Option.some.inj hp).symm⟩
  cases alt <;> simp only [maxNormalExp] at hmax <;> omega

theorem roundPorts_of_subnormal (hp : roundPorts f alt = some p) (h : hexp f ≤ 0) :
    p = ⟨subnormalTrunc f, subnormalGuard f, subnormalSticky f⟩ := by
  unfold roundPorts at hp
  split_ifs at hp with _ hnormal
  · omega
  · exact (Option.some.inj hp).symm

end

/-! ### The obligations -/

/-- Settles O25: the sum is `rne_toNat_eq_ite` and its carry `rne_carry_iff`. -/
theorem roundingAddsTheIncrement : Obligations.RoundingAddsTheIncrement :=
  fun t g s => ⟨rne_toNat_eq_ite t g s, rne_carry_iff t g s⟩

/-- Settles O26: t and its own low bit add up to an even number (`rne_tie_toNat`). -/
theorem tiesRoundToEven : Obligations.TiesRoundToEven := by
  intro t
  rw [getElem_eq_true_iff, getElem_zero_eq_false_iff, getElem_zero_eq_false_iff, rne_tie_toNat]
  omega

/-- Settles O27: U2 cuts the 13 low bits off `{hexp, fm}` in the normal branch and the `sh` low bits off M in
the subnormal branch, and of either cut `guard_sticky_of_shift` says what the two bits mean. -/
theorem guardAndStickyMeanTheDiscardedFraction :
    Obligations.GuardAndStickyMeanTheDiscardedFraction := by
  refine fun f alt p hp => ⟨fun h1 => ?_, fun sh h0 hsh => ?_⟩
  · obtain ⟨h31, rfl⟩ := roundPorts_of_normal hp h1
    obtain ⟨⟨hguard, hsticky⟩, hmean⟩ := guard_sticky_of_shift (k := 13) (by decide)
      (normalGuard_eq_true_iff (f := f)) normalSticky_eq_true_iff
    refine ⟨?_, ⟨?_, ?_⟩, hmean⟩
    · rw [normalTrunc_toNat h1 h31]
      rw [hexp_eq] at h1 ⊢
      omega
    · rw [hguard, BitVec.testBit_toNat]
    · simpa only [Nat.reduceLeDiff, BitVec.testBit_toNat] using hsticky
  · obtain rfl : sh = narrowShift f := by unfold narrowShift; omega
    obtain rfl := roundPorts_of_subnormal hp h0
    refine ⟨?_, guard_sticky_of_shift ((by decide : 1 ≤ 14).trans (narrowShift_ge h0))
      subnormalGuard_eq_true_iff subnormalSticky_eq_true_iff⟩
    rw [subnormalTrunc_toNat h0, Nat.div_add_mod']

end Sys2Proof.Machine
end

section
/-! PROOFS of the family other: operation codes and lines, the step, programs, widening and narrowing as
functions of values, and the integer pseudocode. -/

namespace Sys2Proof.Machine

/-! ### Line words -/

theorem encodeLine_toNat (i : Instr) (a : Word) :
    (encodeLine i a).toNat = (encodeOp i).toNat * 2 ^ 32 + a.toNat :=
  toNat_append_eq_add (encodeOp i) a

theorem lineOp_toNat (l : LineWord) : (lineOp l).toNat = l.toNat / 2 ^ 32 := by
  have hl := l.isLt
  simp only [lineOp, BitVec.extractLsb'_toNat, Nat.shiftRight_eq_div_pow]; omega

theorem lineOperand_toNat (l : LineWord) : (lineOperand l).toNat = l.toNat % 2 ^ 32 := by
  simp [lineOperand, BitVec.extractLsb'_toNat]

@[simp] theorem lineOp_encodeLine (i : Instr) (a : Word) : lineOp (encodeLine i a) = encodeOp i := by
  have ha := a.isLt
  apply BitVec.eq_of_toNat_eq
  rw [lineOp_toNat, encodeLine_toNat]; omega

@[simp] theorem lineOperand_encodeLine (i : Instr) (a : Word) : lineOperand (encodeLine i a) = a := by
  have ha := a.isLt
  apply BitVec.eq_of_toNat_eq
  rw [lineOperand_toNat, encodeLine_toNat]; omega

theorem decodeLine_encodeLine (i : Instr) (a : Word) : decodeLine (encodeLine i a) = (i, a) := by
  rw [decodeLine, lineOp_encodeLine, lineOperand_encodeLine, decodeOp_encodeOp]

theorem encodeLine_decodeLine (l : LineWord) : encodeLine (decodeLine l).1 (decodeLine l).2 = l := by
  apply BitVec.eq_of_toNat_eq
  rw [encodeLine_toNat, decodeLine, encodeOp_decodeOp, lineOp_toNat, lineOperand_toNat,
    Nat.div_add_mod']

/-- Settles O2: the two fields of a line word are its quotient and its remainder by 2^32, and the code in
the first is one-to-one. -/
theorem lineWordsDecodeAndEncodeAgree : Obligations.LineWordsDecodeAndEncodeAgree :=
  ⟨decodeLine_encodeLine, encodeLine_decodeLine, encodeLine_toNat⟩

/-! ### Operation codes and mnemonics -/

theorem decodeMnemonic_mnemonic (i : Instr) : decodeMnemonic i.mnemonic = .ok i := by
  cases i <;> rfl

theorem eq_mnemonic_of_decodeMnemonic_eq_ok {w : String} {i : Instr} (h : decodeMnemonic w = .ok i) :
    w = i.mnemonic := by
  unfold decodeMnemonic at h
  split_ifs at h with h1 h2 h3 h4 <;> obtain rfl := Except.ok.inj h
  · exact h1
  · exact h2
  · exact h3
  · exact h4

theorem decodeMnemonic_of_ne {w : String} (h : ∀ i : Instr, w ≠ i.mnemonic) :
    decodeMnemonic w = .error (.unknownMnemonic w) := by
  cases hw : decodeMnemonic w with
  | ok i => exact absurd (eq_mnemonic_of_decodeMnemonic_eq_ok hw) (h i)
  | error e =>
    unfold decodeMnemonic at hw
    split_ifs at hw
    exact hw.symm

/-- Settles O1: the four codes are all there are of two bits, so each is looked up in the decoder. -/
theorem operationCodesDecodeToTheirRows : Obligations.OperationCodesDecodeToTheirRows := by
  unfold Obligations.OperationCodesDecodeToTheirRows
  decide

/-- Settles O3: the decoder compares the word with each of the four mnemonics. -/
theorem mnemonicsDecodeToTheirOperations : Obligations.MnemonicsDecodeToTheirOperations :=
  ⟨decodeMnemonic_mnemonic, fun _ _ => eq_mnemonic_of_decodeMnemonic_eq_ok,
    fun _ => decodeMnemonic_of_ne⟩

/-! ### The step -/

/-- With the code of an operation driven, whatever the state, a step is that operation. -/
theorem step_of_op {s : State} {op : OpCode} {i : Instr} (hi : decodeOp op = i) (a : Word) :
    step { s with op := op, aIn := a } = exec i { s with op := encodeOp i, aIn := a } := by
  rw [← hi, encodeOp_decodeOp]
  rfl

theorem step_widen {s : State} (h : narrows s.op = false) :
    step s = .next { s with yOut := s.fOut } := by
  rw [step_eq, coreOut_widen _ _ h]
  rfl

theorem step_narrow {s : State} (h : narrows s.op = true) :
    step s = .next { s with yOut := zext32 s.hOut } := by
  rw [step_eq, coreOut_narrow _ _ h]
  rfl

/-- Settles O4: the step decodes `op`, and both ways of driving it put the code of i there. -/
theorem stepRunsTheDecodedOperation : Obligations.StepRunsTheDecodedOperation := by
  refine ⟨fun s i hi => ⟨?_, ?_⟩, fun s nbits w i hi => ?_, fun s l i a hl => ?_⟩
  · cases i <;> rfl
  · rw [step, hi]
  · exact step_of_op (Option.some.inj hi) s.aIn
  · obtain ⟨hi, rfl⟩ := Prod.mk.inj hl
    exact step_of_op hi (lineOperand l)

/-- Settles O5: `step_widen` and `step_narrow` are the two positions of the wrapper's multiplexer. -/
theorem stepEvaluatesTheSelectedUnit : Obligations.StepEvaluatesTheSelectedUnit := by
  refine fun s => ⟨fun h => ⟨rfl, step_widen h⟩, fun h => ⟨rfl, ?_⟩⟩
  rw [step_narrow h, zext32_eq_append]

/-- Settles O7: the output is `coreOut` of the two inputs, whatever else the states hold. -/
theorem outputDependsOnPresentInputsOnly : Obligations.OutputDependsOnPresentInputsOnly := by
  intro s s' hop ha
  exact ⟨coreOut s.op s.aIn, step_eq s, by rw [hop, ha]; exact step_eq s'⟩

/-- Settles O8: a step drives the output alone, so the next one drives the same word. -/
theorem evaluationIsIdempotent : Obligations.EvaluationIsIdempotent :=
  fun s => ⟨_, step_eq s, step_eq _⟩

/-- Settles O10: H2F.IEEE of +0 is +0. -/
theorem resetOutputIsLegalAndSettled : Obligations.ResetOutputIsLegalAndSettled := by
  have hlegal : WidenedIeee State.reset.yOut := by decide
  exact ⟨by decide, hlegal⟩

theorem State.sampleAt_early (s : State) {n : Nat} (h : n < Config.tPd) :
    s.sampleAt n = { s with yOut := Config.unsettledWord s.draws, draws := s.draws + 1 } :=
  if_neg (Nat.not_le.mpr h)

/-- Settles O11: a settled sample is the step's output at any time (`sampleAt_settled`), and an early one
leaves the inputs, from which the next step computes its output. -/
theorem sampleAfterSettlingIsTheRuleValue : Obligations.SampleAfterSettlingIsTheRuleValue := by
  refine fun s n => ⟨fun h => ⟨?_, fun m hm => ?_⟩, fun h => ⟨s.sampleAt_op n, s.sampleAt_aIn n, ?_⟩⟩
  · rw [step_eq, s.sampleAt_settled n h]
  · rw [s.sampleAt_settled n h, s.sampleAt_settled m (h.trans hm)]
  · rw [step_eq, s.sampleAt_early h]
    rfl

/-! ### Lines and programs -/

/-- The bench after line l has been evaluated with the word a on `a_in` (R50). -/
def Bench.afterLine (b : Bench) (l : Line) (a : Word) : Bench :=
  { block := { b.block with op := encodeOp l.instr, aIn := a, yOut := coreOut (encodeOp l.instr) a }
    names := (l.dst, coreOut (encodeOp l.instr) a) :: b.names }

theorem Bench.runLine_eq_map_afterLine (b : Bench) (l : Line) :
    b.runLine l = (l.operandWord b).map (b.afterLine l) :=
  b.runLine_eq l

theorem Bench.lookup_afterLine (b : Bench) (l : Line) (a : Word) (n : String) :
    (b.afterLine l a).lookup n =
      if l.dst = n then some (coreOut (encodeOp l.instr) a) else b.lookup n := by
  by_cases h : l.dst = n <;> simp [Bench.lookup, Bench.afterLine, h]

theorem Bench.runProgram_nil (b : Bench) : b.runProgram [] = some b := rfl

theorem Bench.runProgram_cons (b : Bench) (l : Line) (ls : List Line) :
    b.runProgram (l :: ls) = (b.runLine l).bind fun c => c.runProgram ls := by
  rw [Bench.runProgram]
  cases b.runLine l <;> rfl

theorem Bench.runProgram_append (b : Bench) (ls ms : List Line) :
    b.runProgram (ls ++ ms) = (b.runProgram ls).bind fun c => c.runProgram ms := by
  induction ls generalizing b with
  | nil => rfl
  | cons l ls ih => simp only [List.cons_append, Bench.runProgram_cons, ih, Option.bind_assoc]

/-- A line sees of the names the one that is its operand. -/
theorem Line.operandWord_afterLine {b : Bench} {l m : Line} (h : m.operand ≠ .name l.dst) (a : Word) :
    m.operandWord (b.afterLine l a) = m.operandWord b := by
  unfold Line.operandWord
  cases hm : m.operand with
  | literal ds => rfl
  | name n =>
    have hn : l.dst ≠ n := fun hc => h (by rw [hm, hc])
    simp only [Bench.lookup_afterLine, hn, if_false]

/-- Two lines, the second of which does not use the first one's result, are evaluated on operands of the
bench before both. -/
theorem Bench.runProgram_pair {b c : Bench} {l m : Line} (hm : m.operand ≠ .name l.dst)
    (hc : b.runProgram [l, m] = some c) :
    ∃ a a' : Word, l.operandWord b = some a ∧ m.operandWord b = some a' ∧
      c = (b.afterLine l a).afterLine m a' := by
  simp only [Bench.runProgram_cons, Bench.runLine_eq_map_afterLine, Option.bind_eq_some_iff,
    Option.map_eq_some_iff, Bench.runProgram_nil, Option.some.injEq] at hc
  obtain ⟨_, ⟨a, ha, rfl⟩, _, ⟨a', ha', rfl⟩, rfl⟩ := hc
  exact ⟨a, a', ha, Line.operandWord_afterLine hm a ▸ ha', rfl⟩

theorem digitsValue_lt (ds : List (BitVec 4)) : digitsValue ds < 16 ^ ds.length := by
  induction ds with
  | nil => decide
  | cons d ds ih =>
    have hd := d.isLt
    rw [digitsValue, List.length_cons, Nat.pow_succ]
    nlinarith

theorem digitsValue_lt_of_width {i : Instr} {ds : List (BitVec 4)} (h : 4 * ds.length = i.operandBits) :
    digitsValue ds < 2 ^ 32 := by
  have hlen : ds.length ≤ 8 := by cases i <;> simp only [Instr.operandBits] at h <;> omega
  exact (digitsValue_lt ds).trans_le (Nat.pow_le_pow_right (by decide : 0 < 16) hlen)

theorem usedBits_toNat (i : Instr) (w : Word) : (usedBits i w).toNat = w.toNat % 2 ^ i.operandBits := by
  have hw := w.isLt
  have hhalf : (zext32 (halfOperand w)).toNat = w.toNat % 2 ^ 16 := by
    rw [zext32_toNat]; simp [halfOperand, BitVec.extractLsb'_toNat]
  cases i with
  | h2fIeee => exact hhalf
  | h2fAlt => exact hhalf
  | f2hIeee => exact (Nat.mod_eq_of_lt hw).symm
  | f2hAlt => exact (Nat.mod_eq_of_lt hw).symm

theorem Bench.runLine_eq_none {b : Bench} {l : Line} (h : l.operandWord b = none) :
    b.runLine l = none := by
  rw [Bench.runLine_eq, h]; rfl

/-- Settles O48: the line leaves `afterLine`, whose names are looked up in `lookup_afterLine`. -/
theorem aLineIsOneEvaluationOfTheWrapper : Obligations.ALineIsOneEvaluationOfTheWrapper := by
  intro b l a ha
  refine ⟨b.afterLine l a, ?_, rfl, ?_, fun n hn => ?_⟩
  · rw [Bench.runLine_eq_map_afterLine, ha]; rfl
  · rw [Bench.lookup_afterLine, if_pos rfl]
  · rw [Bench.lookup_afterLine, if_neg hn.symm]

/-- Settles O49: a literal of the operand width is below 2^32, so no digit of it is lost on `a_in`. -/
theorem operandsOfALineAreLiteralsAndNames : Obligations.OperandsOfALineAreLiteralsAndNames := by
  refine fun b l => ⟨fun ds hl => ⟨fun hw => ?_, fun hw => ?_⟩,
    fun n hl => ⟨fun hn => ?_, fun w hw => ?_⟩⟩
  · refine ⟨BitVec.ofNat 32 (digitsValue ds), ?_, ?_⟩
    · simp [Line.operandWord, hl, literalWf, hw]
    · rw [BitVec.toNat_ofNat, Nat.mod_eq_of_lt (digitsValue_lt_of_width hw)]
  · exact Bench.runLine_eq_none (by simp [Line.operandWord, hl, literalWf, hw])
  · exact Bench.runLine_eq_none (by simp [Line.operandWord, hl, hn])
  · exact ⟨usedBits l.instr w, by simp [Line.operandWord, hl, hw], usedBits_toNat _ _⟩

/-- Settles O50: in either order each line is evaluated on its operand in the first bench
(`runProgram_pair`), and of two different names it does not matter which was bound last. -/
theorem independentLinesGiveTheSameNamesInEitherOrder :
    Obligations.IndependentLinesGiveTheSameNamesInEitherOrder := by
  intro b c d l m hne hl hm hc hd n
  obtain ⟨a, a', ha, ha', rfl⟩ := Bench.runProgram_pair hm hc
  obtain ⟨e', e, he', he, rfl⟩ := Bench.runProgram_pair hl hd
  obtain rfl : a = e := Option.some.inj (ha.symm.trans he)
  obtain rfl : a' = e' := Option.some.inj (ha'.symm.trans he')
  simp only [Bench.lookup_afterLine]
  by_cases hln : l.dst = n
  · have hmn : m.dst ≠ n := fun h => hne (hln.trans h.symm)
    simp only [hln, hmn, if_true, if_false]
  · simp only [hln, if_false]

/-- Settles O51: the clauses on one line and on two parts follow from the equation for a line before
others. -/
theorem programsRunInTheOrderGiven : Obligations.ProgramsRunInTheOrderGiven := by
  refine fun b => ⟨rfl, fun l => ?_, b.runProgram_cons, b.runProgram_append⟩
  simp only [Bench.runProgram_cons, Bench.runProgram_nil, Option.bind_fun_some]

/-! ### The scale of the half patterns (R41) -/

/-- From each pattern to the next the magnitude grows by the unit of its exponent. -/
theorem halfUnits_succ (n : Nat) : halfUnits (n + 1) = halfUnits n + 2 ^ (n / 1024 - 1) := by
  unfold halfUnits
  rcases Nat.lt_trichotomy n 1023 with h | rfl | h
  · have h0 : n / 1024 - 1 = 0 := by omega
    simp only [show n + 1 < 1024 by omega, show n < 1024 by omega, if_true, h0, Nat.pow_zero]
  · rfl
  · simp only [show ¬ n + 1 < 1024 by omega, show ¬ n < 1024 by omega, if_false]
    by_cases hcarry : n % 1024 = 1023
    · have hexp : (n + 1) / 1024 - 1 = n / 1024 - 1 + 1 := by omega
      rw [hexp, hcarry, show (n + 1) % 1024 = 0 by omega, Nat.pow_succ]
      ring
    · have hexp : (n + 1) / 1024 = n / 1024 := by omega
      rw [hexp, show (n + 1) % 1024 = n % 1024 + 1 by omega]
      ring

theorem halfMagnitudeUnits_succ (n : Nat) :
    halfMagnitudeUnits (n + 1) = halfMagnitudeUnits n + 2 ^ (n / 1024 - 1 + 125) := by
  simp only [halfMagnitudeUnits, halfUnits_succ, Nat.add_mul, Nat.pow_add]

theorem halfMagnitudeUnits_strictMono : StrictMono halfMagnitudeUnits :=
  strictMono_nat_of_lt_succ fun n => by
    rw [halfMagnitudeUnits_succ]
    exact Nat.lt_add_of_pos_right (Nat.two_pow_pos _)

theorem halfMagnitudeUnits_of_lt {n : Nat} (h : n < 1024) : halfMagnitudeUnits n = n * 2 ^ 125 := by
  rw [halfMagnitudeUnits, halfUnits, if_pos h]

theorem halfMagnitudeUnits_of_exp_pos {e m : Nat} (he : 1 ≤ e) (hm : m < 1024) :
    halfMagnitudeUnits (e * 1024 + m) = (1024 + m) * 2 ^ (e + 124) := by
  rw [halfMagnitudeUnits, halfUnits, if_neg (by omega), show (e * 1024 + m) % 1024 = m by omega,
    show (e * 1024 + m) / 1024 = e by omega, Nat.mul_assoc, ← Nat.pow_add]
  congr 2
  omega

theorem halfMagnitude_toNat_eq_fields (h : Half) :
    (halfMagnitude h).toNat = (halfExp h).toNat * 1024 + (halfMant h).toNat := by
  rw [halfMagnitude_toNat, halfExp_toNat, halfMant_toNat]; omega

/-- A half is its sign and its magnitude. -/
theorem packHalf_halfMagnitude (h : Half) : packHalf (halfSign h) (halfMagnitude h) = h := by
  apply BitVec.eq_of_toNat_eq
  rw [packHalf_toNat, half_toNat_eq_sign_magnitude h]

/-! ### The renormalised subnormal (R62) -/

/-- The bounds that determine `msb_index`. -/
theorem msbIndex_eq {m : BitVec 10} {p : Nat} (hlo : 2 ^ p ≤ m.toNat) (hhi : m.toNat < 2 ^ (p + 1)) :
    m ≠ 0#10 ∧ msbIndex m = p := by
  have hpos : 0 < m.toNat := (Nat.two_pow_pos p).trans_le hlo
  have h0 : m ≠ 0#10 := fun h => by simp [h] at hpos
  refine ⟨h0, ?_⟩
  rw [msbIndex, if_neg h0]
  exact (Nat.log2_eq_iff hpos.ne').mpr ⟨hlo, hhi⟩

theorem clz_toNat_of_bounds {x : BitVec 32} {p : Nat} (hlo : 2 ^ p ≤ x.toNat)
    (hhi : x.toNat < 2 ^ (p + 1)) : x.clz.toNat + p = 31 := by
  have h0 : x ≠ 0#32 := fun h => by
    have := Nat.two_pow_pos p
    simp [h] at hlo
  have habove := (Nat.pow_lt_pow_iff_right (by decide)).mp
    (hlo.trans_lt (BitVec.toNat_lt_two_pow_sub_clz (x := x)))
  have hbelow := (Nat.pow_lt_pow_iff_right (by decide)).mp
    ((BitVec.two_pow_sub_clz_le_toNat_of_ne_zero (by decide) h0).trans_lt hhi)
  omega

theorem clz_zeroExtend_of_bounds {m : BitVec 10} {p : Nat} (hlo : 2 ^ p ≤ m.toNat)
    (hhi : m.toNat < 2 ^ (p + 1)) : (m.zeroExtend 32).clz.toNat + p = 31 := by
  have hext : (m.zeroExtend 32).toNat = m.toNat := BitVec.toNat_setWidth_of_le (by decide)
  exact clz_toNat_of_bounds (hext ▸ hlo) (hext ▸ hhi)

theorem shift_msb_bounds {m p sh : Nat} (hsh : sh + p = 10) (hlo : 2 ^ p ≤ m) (hhi : m < 2 ^ (p + 1)) :
    2 ^ 10 ≤ m * 2 ^ sh ∧ m * 2 ^ sh < 2 ^ 11 := by
  constructor
  · rw [← hsh, Nat.pow_add, Nat.mul_comm]
    exact Nat.mul_le_mul_right _ hlo
  · rw [show 11 = p + 1 + sh by omega, Nat.pow_add]
    exact Nat.mul_lt_mul_of_pos_right hhi (Nat.two_pow_pos _)

theorem renormMant_toNat (h : Half) : (renormMant h).toNat =
    (((halfMant h).toNat <<< renormShift h) &&& 0x3FF) <<< 13 := by
  have hlt : ((halfMant h).toNat <<< renormShift h) &&& 0x3FF < 2 ^ 10 := Nat.and_lt_two_pow _ (by decide)
  rw [renormMant, BitVec.toNat_ofNat, Nat.shiftLeft_eq _ 13, Nat.mod_eq_of_lt (by omega)]

section
variable {h : Half} {alt : Bool}

theorem renormShift_add_msbIndex (hm : halfMant h ≠ 0#10) :
    renormShift h + msbIndex (halfMant h) = 10 := by
  have hp := msbIndex_le _ hm
  unfold renormShift; omega

theorem renormExp_toNat (hm : halfMant h ≠ 0#10) :
    (renormExp h).toNat = msbIndex (halfMant h) + 103 := by
  have hp := msbIndex_le _ hm
  have hsh := renormShift_add_msbIndex hm
  rw [renormExp, BitVec.toNat_ofInt]
  omega

/-- The shift brings the top bit of the mantissa to the place of the implicit one, which the mask removes. -/
theorem renorm_significand (hm : halfMant h ≠ 0#10) :
    2 ^ 10 + (((halfMant h).toNat <<< renormShift h) &&& 0x3FF) =
      (halfMant h).toNat * 2 ^ renormShift h := by
  obtain ⟨hlo, hhi⟩ := msbIndex_spec _ hm
  obtain ⟨hge, hlt⟩ := shift_msb_bounds (renormShift_add_msbIndex hm) hlo hhi
  rw [Nat.shiftLeft_eq, show 0x3FF = 2 ^ 10 - 1 from rfl, Nat.and_two_pow_sub_one_eq_mod]
  omega

/-! ### The classes of halfs, and what each widens to -/

/-- U1's case split, by class (R39, R40). -/
theorem half_cases (h : Half) (alt : Bool) :
    (halfExp h = 0#5 ∧ halfMant h = 0#10) ∨ (halfExp h = 0#5 ∧ halfMant h ≠ 0#10) ∨
    (halfExp h ≠ 0#5 ∧ (halfExp h = 31#5 → alt = true)) ∨
    (halfExp h = 31#5 ∧ halfMant h = 0#10 ∧ alt = false) ∨ (IsHalfNaN h ∧ alt = false) := by
  by_cases h0 : halfExp h = 0#5
  · by_cases hm : halfMant h = 0#10
    · exact .inl ⟨h0, hm⟩
    · exact .inr (.inl ⟨h0, hm⟩)
  by_cases h31 : halfExp h = 31#5 → alt = true
  · exact .inr (.inr (.inl ⟨h0, h31⟩))
  obtain ⟨he, ha⟩ := Classical.not_imp.mp h31
  have ha := Bool.eq_false_of_not_eq_true ha
  by_cases hm : halfMant h = 0#10
  · exact .inr (.inr (.inr (.inl ⟨he, hm, ha⟩)))
  · exact .inr (.inr (.inr (.inr ⟨⟨he, hm⟩, ha⟩)))

theorem halfExp_pos (h0 : halfExp h ≠ 0#5) : 1 ≤ (halfExp h).toNat :=
  Nat.pos_of_ne_zero fun hc => h0 (BitVec.eq_of_toNat_eq hc)

theorem singleExp_h2f_of_subnormal (he : halfExp h = 0#5) (hm : halfMant h ≠ 0#10) :
    (singleExp (h2f h alt)).toNat = msbIndex (halfMant h) + 103 := by
  rw [h2f_of_subnormal he hm, singleExp_packSingle, renormExp_toNat hm]

theorem singleExp_h2f_of_normal (h0 : halfExp h ≠ 0#5) (h31 : halfExp h = 31#5 → alt = true) :
    (singleExp (h2f h alt)).toNat = (halfExp h).toNat + 112 := by
  rw [h2f_of_normal h0 h31, singleExp_packSingle, widenExp_toNat]

theorem singleUnits_h2f_of_subnormal (he : halfExp h = 0#5) (hm : halfMant h ≠ 0#10) :
    singleUnits (h2f h alt) = (halfMant h).toNat * 2 ^ 125 := by
  have hsh := renormShift_add_msbIndex hm
  have hexp := singleExp_h2f_of_subnormal (alt := alt) he hm
  rw [singleUnits_of_exp_pos (by omega), hexp, h2f_of_subnormal he hm, singleMant_packSingle,
    renormMant_toNat]
  have hsig := renorm_significand hm
  calc (2 ^ 23 + (((halfMant h).toNat <<< renormShift h) &&& 0x3FF) <<< 13) *
        2 ^ (msbIndex (halfMant h) + 103 - 1)
    _ = (halfMant h).toNat * 2 ^ renormShift h * 2 ^ 13 * 2 ^ (msbIndex (halfMant h) + 102) := by
      rw [← hsig, Nat.shiftLeft_eq, Nat.add_mul (2 ^ 10), ← Nat.pow_add]
      rfl
    _ = (halfMant h).toNat * 2 ^ (renormShift h + msbIndex (halfMant h) + 115) := by ring
    _ = (halfMant h).toNat * 2 ^ 125 := by rw [hsh]

theorem singleUnits_h2f_of_normal (h0 : halfExp h ≠ 0#5) (h31 : halfExp h = 31#5 → alt = true) :
    singleUnits (h2f h alt) = (1024 + (halfMant h).toNat) * 2 ^ ((halfExp h).toNat + 124) := by
  have hexp := singleExp_h2f_of_normal h0 h31
  rw [singleUnits_of_exp_pos (by omega), hexp, h2f_of_normal h0 h31, singleMant_packSingle,
    widenMant_toNat, show (halfExp h).toNat + 112 - 1 = (halfExp h).toNat + 111 from rfl]
  ring

/-- Widening keeps the magnitude of every finite half. -/
theorem singleUnits_h2f (h31 : halfExp h = 31#5 → alt = true) :
    singleUnits (h2f h alt) = halfMagnitudeUnits (halfMagnitude h).toNat := by
  have hm := (halfMant h).isLt
  rw [halfMagnitude_toNat_eq_fields]
  by_cases h0 : halfExp h = 0#5
  · rw [h0, show (0#5).toNat * 1024 + (halfMant h).toNat = (halfMant h).toNat by simp,
      halfMagnitudeUnits_of_lt hm]
    by_cases hm0 : halfMant h = 0#10
    · rw [h2f_of_zero h0 hm0, hm0]
      simp [singleUnits]
    · exact singleUnits_h2f_of_subnormal h0 hm0
  · rw [halfMagnitudeUnits_of_exp_pos (halfExp_pos h0) hm, singleUnits_h2f_of_normal h0 h31]

theorem isFinite_h2f (h31 : halfExp h = 31#5 → alt = true) : IsFinite (h2f h alt) := by
  have hlt := (halfExp h).isLt
  suffices hne : (singleExp (h2f h alt)).toNat ≠ 255 from fun he => hne (by rw [he]; rfl)
  by_cases h0 : halfExp h = 0#5
  · by_cases hm0 : halfMant h = 0#10
    · rw [h2f_of_zero h0 hm0, singleExp_packSingle]
      decide
    · have hp := msbIndex_le _ hm0
      rw [singleExp_h2f_of_subnormal h0 hm0]
      omega
  · rw [singleExp_h2f_of_normal h0 h31]
    omega

/-! ### Values of halfs and of what they widen to -/

theorem singleValue_of_isFinite {f : Single} (hf : IsFinite f) :
    singleValue f = .finite (singleSign f == 1#1) (singleUnits f) := by
  rw [singleValue, if_neg hf]

theorem halfValue_of_finite (h31 : halfExp h = 31#5 → alt = true) :
    halfValue h alt = .finite (halfSign h == 1#1) (halfMagnitudeUnits (halfMagnitude h).toNat) :=
  if_neg fun ⟨he, ha⟩ => by simp [h31 he] at ha

theorem halfValue_of_infinity (he : halfExp h = 31#5) (hm : halfMant h = 0#10) :
    halfValue h false = .infinity (halfSign h == 1#1) := by
  simp [halfValue, he, hm]

theorem halfValue_of_isHalfNaN (hn : IsHalfNaN h) : halfValue h false = .none := by
  obtain ⟨he, hm⟩ := hn
  simp [halfValue, he, hm]

theorem singleValue_h2f_of_isHalfNaN (hn : IsHalfNaN h) : singleValue (h2f h false) = .none := by
  have hq := quietMant_quietBit (halfMant h)
  have hm : (1#1 ++ (halfMant h).extractLsb' 0 9 ++ 0#13 : BitVec 23) ≠ 0#23 := fun h0 => by
    simp [h0] at hq
  rw [h2f_of_isHalfNaN hn, singleValue, singleExp_packSingle, singleMant_packSingle, if_pos rfl, if_neg hm]

/-- Widening is exact (R67): a NaN has no value before or after. -/
theorem singleValue_h2f (h : Half) (alt : Bool) : singleValue (h2f h alt) = halfValue h alt := by
  by_cases h31 : halfExp h = 31#5 → alt = true
  · rw [singleValue_of_isFinite (isFinite_h2f h31), halfValue_of_finite h31, singleSign_h2f,
      singleUnits_h2f h31]
  obtain ⟨he, ha⟩ := Classical.not_imp.mp h31
  obtain rfl := Bool.eq_false_of_not_eq_true ha
  by_cases hm : halfMant h = 0#10
  · rw [halfValue_of_infinity he hm, h2f_of_infinity he hm]
    simp [singleValue]
  · rw [halfValue_of_isHalfNaN ⟨he, hm⟩, singleValue_h2f_of_isHalfNaN ⟨he, hm⟩]

end

theorem sign_eq_of_beq {s t : BitVec 1} (h : (s == 1#1) = (t == 1#1)) : s = t := by
  revert s t; decide

theorem half_eq_of_parts {h k : Half} (hs : halfSign h = halfSign k)
    (hm : (halfMagnitude h).toNat = (halfMagnitude k).toNat) : h = k := by
  rw [← packHalf_halfMagnitude h, ← packHalf_halfMagnitude k, hs, BitVec.eq_of_toNat_eq hm]

/-- Two halfs of one value are one half, where they have a value. -/
theorem half_eq_of_halfValue_eq {h k : Half} {alt : Bool} (hne : halfValue h alt ≠ .none)
    (heq : halfValue h alt = halfValue k alt) : h = k := by
  unfold halfValue at hne heq
  split_ifs at hne heq with hh hm hk hkm hk hkm
  · rw [Value.infinity.injEq] at heq
    refine half_eq_of_parts (sign_eq_of_beq heq) ?_
    rw [halfMagnitude_toNat_eq_fields, halfMagnitude_toNat_eq_fields, hh.1, hk.1, hm, hkm]
  · exact absurd rfl hne
  · obtain ⟨hs, hunits⟩ := Value.finite.inj heq
    exact half_eq_of_parts (sign_eq_of_beq hs) (halfMagnitudeUnits_strictMono.injective hunits)

/-! ### Obligations about widening -/

theorem exists_msb {m : BitVec 10} (h : m ≠ 0#10) :
    ∃ p : Nat, p ≤ 9 ∧ 2 ^ p ≤ m.toNat ∧ m.toNat < 2 ^ (p + 1) :=
  ⟨msbIndex m, msbIndex_le m h, msbIndex_spec m h⟩

/-- Settles O15: the bounds make p the `msb_index` (`msbIndex_eq`), and the shifted mantissa with its
implicit one is exact (`renorm_significand`). -/
theorem subnormalsWidenByRenormalisation : Obligations.SubnormalsWidenByRenormalisation := by
  refine ⟨fun m h => exists_msb h, fun i s p sh hi he hlo hhi hsh => ?_⟩
  obtain ⟨hm, rfl⟩ := msbIndex_eq hlo hhi
  obtain rfl : sh = renormShift s.hIn := by
    have := renormShift_add_msbIndex hm
    omega
  refine ⟨?_, by omega, _, exec_of_isWidening i s hi, ?_, singleUnits_h2f_of_subnormal he hm⟩
  · have hclz := clz_zeroExtend_of_bounds hlo hhi
    omega
  · rw [h2f_of_subnormal he hm, packSingle_eq_singleOf, renormExp_toNat hm, renormMant_toNat]

/-- Settles O20: `singleValue_h2f` in the two flavours; it says of a NaN too that it keeps having no value. -/
theorem wideningIsExact : Obligations.WideningIsExact :=
  fun s => ⟨⟨_, exec_h2fAlt s, singleValue_h2f _ _⟩, fun _ => ⟨_, exec_h2fIeee s, singleValue_h2f _ _⟩⟩

theorem halfValue_ne_none {h : Half} {alt : Bool} (h0 : IsHalfNaN h → alt = true) :
    halfValue h alt ≠ .none := by
  by_cases h31 : halfExp h = 31#5 → alt = true
  · rw [halfValue_of_finite h31]
    exact Value.noConfusion
  · obtain ⟨he, ha⟩ := Classical.not_imp.mp h31
    have hm : halfMant h = 0#10 := by_contra fun hm => ha (h0 ⟨he, hm⟩)
    rw [Bool.eq_false_of_not_eq_true ha, halfValue_of_infinity he hm]
    exact Value.noConfusion

/-- A half with a value is determined by what it widens to, because the value is. -/
theorem half_eq_of_h2f_eq {h k : Half} {alt : Bool} (h0 : IsHalfNaN h → alt = true)
    (heq : h2f h alt = h2f k alt) : h = k :=
  half_eq_of_halfValue_eq (halfValue_ne_none h0) (by rw [← singleValue_h2f, ← singleValue_h2f, heq])

/-- Setting the quiet bit of a half: in fields, the sum of the sign and exponent above it, the bit, and the
nine low bits. -/
theorem or_quietBit_half_toNat (h : Half) :
    (h ||| 0x0200#16).toNat = h.toNat / 2 ^ 10 * 2 ^ 10 + (2 ^ 9 + h.toNat % 2 ^ 9) := by
  have hq := or_quietBit (halfMant h)
  have hm := halfMant_toNat h
  have hlow : 2 ^ 9 + (halfMant h).toNat % 2 ^ 9 < 2 ^ 10 := by omega
  calc (h ||| 0x0200#16).toNat
    _ = h.toNat ||| 2 ^ 9 := BitVec.toNat_or ..
    _ = (h.toNat / 2 ^ 10 * 2 ^ 10 ||| (halfMant h).toNat) ||| 2 ^ 9 := by
      congr 1
      rw [← Nat.shiftLeft_eq, ← Nat.shiftLeft_add_eq_or_of_lt (halfMant h).isLt, Nat.shiftLeft_eq]
      omega
    _ = h.toNat / 2 ^ 10 * 2 ^ 10 ||| (2 ^ 9 + (halfMant h).toNat % 2 ^ 9) := by
      rw [Nat.or_assoc, Nat.or_comm _ (2 ^ 9), hq]
    _ = h.toNat / 2 ^ 10 * 2 ^ 10 + (2 ^ 9 + (halfMant h).toNat % 2 ^ 9) := by
      rw [← Nat.shiftLeft_eq, Nat.shiftLeft_add_eq_or_of_lt hlow]
    _ = _ := by omega

theorem h2f_toNat_of_isHalfNaN {h : Half} (hn : IsHalfNaN h) : (h2f h false).toNat =
    (halfSign h).toNat * 2 ^ 31 + 0xFF * 2 ^ 23 + (2 ^ 9 + (halfMant h).toNat % 2 ^ 9) * 2 ^ 13 := by
  rw [h2f_of_isHalfNaN hn, packSingle_toNat, quietMant_toNat, or_quietBit]
  rfl

/-- Two NaNs widen to one word if and only if they have the same sign and the same nine low bits. -/
theorem h2f_eq_iff_of_isHalfNaN {h k : Half} (hh : IsHalfNaN h) (hk : IsHalfNaN k) :
    h2f h false = h2f k false ↔ h ||| 0x0200#16 = k ||| 0x0200#16 := by
  have hexp : ∀ {x : Half}, IsHalfNaN x → x.toNat / 2 ^ 10 % 2 ^ 5 = 31 := fun hx => by
    rw [← halfExp_toNat, hx.1]; rfl
  have hhe := hexp hh
  have hke := hexp hk
  rw [← BitVec.toNat_inj, ← BitVec.toNat_inj, or_quietBit_half_toNat, or_quietBit_half_toNat,
    h2f_toNat_of_isHalfNaN hh, h2f_toNat_of_isHalfNaN hk, halfSign_toNat, halfSign_toNat,
    halfMant_toNat, halfMant_toNat]
  omega

/-- Settles O21: what has a value is determined by it (`half_eq_of_h2f_eq`); of an IEEE NaN, U1 keeps all but
the quiet bit. -/
theorem wideningIsInjectiveButForNaNs : Obligations.WideningIsInjectiveButForNaNs :=
  ⟨fun _ _ => half_eq_of_h2f_eq fun _ => rfl, fun _ _ hn => half_eq_of_h2f_eq fun h => absurd h hn,
    fun _ _ => h2f_eq_iff_of_isHalfNaN, fun s => ⟨exec_h2fIeee s, exec_h2fAlt s⟩⟩

theorem singleClass_of_normal {f : Single} (hlo : 1 ≤ (singleExp f).toNat)
    (hhi : (singleExp f).toNat ≤ 254) : singleClass f = .normal := by
  have h0 : singleExp f ≠ 0#8 := fun h => by simp [h] at hlo
  have h255 : singleExp f ≠ 255#8 := fun h => by simp [h] at hhi
  simp [singleClass, h0, h255]

/-- What a widened half's class and exponent field are, for each class (R70). -/
theorem class_h2f (h : Half) (alt : Bool) :
    match halfClass h alt with
    | .zero => singleClass (h2f h alt) = .zero
    | .subnormal => singleClass (h2f h alt) = .normal ∧
        103 ≤ (singleExp (h2f h alt)).toNat ∧ (singleExp (h2f h alt)).toNat ≤ 112
    | .normal => singleClass (h2f h alt) = .normal ∧
        113 ≤ (singleExp (h2f h alt)).toNat ∧ (singleExp (h2f h alt)).toNat ≤ 143 ∧
        ((singleExp (h2f h alt)).toNat = 143 ↔ halfExp h = 31#5)
    | .infinity => singleClass (h2f h alt) = .infinity
    | .quietNaN => singleClass (h2f h alt) = .quietNaN
    | .signalingNaN => singleClass (h2f h alt) = .quietNaN := by
  rcases half_cases h alt with ⟨he, hm⟩ | ⟨he, hm⟩ | ⟨h0, h31⟩ | ⟨he, hm, rfl⟩ | ⟨hn, rfl⟩
  · simp [halfClass, he, hm, h2f_of_zero, singleClass]
  · have hp := msbIndex_le _ hm
    have hexp := singleExp_h2f_of_subnormal (alt := alt) he hm
    simp only [halfClass, he, hm, if_true, if_false]
    exact ⟨singleClass_of_normal (by omega) (by omega), by omega, by omega⟩
  · have hexp := singleExp_h2f_of_normal h0 h31
    have hpos := halfExp_pos h0
    have hlt := (halfExp h).isLt
    have hfin : ¬ (halfExp h = 31#5 ∧ alt = false) := fun ⟨he, ha⟩ => by simp [h31 he] at ha
    have h31' : halfExp h = 31#5 ↔ (halfExp h).toNat = 31 := BitVec.toNat_inj.symm
    simp only [halfClass, h0, hfin, if_false]
    exact ⟨singleClass_of_normal (by omega) (by omega), by omega, by omega, by rw [h31']; omega⟩
  · simp [halfClass, he, hm, h2f_of_infinity, singleClass]
  · have hq : singleClass (h2f h false) = .quietNaN := by
      rw [h2f_of_isHalfNaN hn, singleClass_packSingle_quietNaN _ (quietMant_quietBit _)]
    obtain ⟨he, hm⟩ := hn
    by_cases h9 : (halfMant h)[9] = true <;> simpa [halfClass, he, hm, h9] using hq

/-- Settles O22: `class_h2f`, in the flavour that the operation selects. -/
theorem wideningMapsClassesToClasses : Obligations.WideningMapsClassesToClasses := by
  rintro s i alt (⟨rfl, rfl⟩ | ⟨rfl, rfl⟩)
  · exact ⟨_, exec_h2fIeee s, class_h2f s.hIn false⟩
  · exact ⟨_, exec_h2fAlt s, class_h2f s.hIn true⟩

/-- Settles O23: the flavour is asked for where the exponent is 31 only. -/
theorem flavoursWidenAlikeBelowExponent31 : Obligations.FlavoursWidenAlikeBelowExponent31 := by
  intro s h31
  have heq : h2f s.hIn false = h2f s.hIn true := by simp [h2f, h31]
  exact ⟨_, exec_h2fIeee s, by rw [exec_h2fAlt, heq]⟩

@[simp] theorem halfOperand_append (high h : BitVec 16) : halfOperand (high ++ h) = h := by
  have hh := h.isLt
  apply BitVec.eq_of_toNat_eq
  simp only [halfOperand, BitVec.extractLsb'_toNat, Nat.shiftRight_zero, toNat_append_eq_add]
  omega

/-- Settles O24: U1's port takes the low half of `a_in`. -/
theorem wideningIgnoresTheHighOperandBits : Obligations.WideningIgnoresTheHighOperandBits := by
  intro i s high hi
  refine ⟨_, exec_of_isWidening i s hi, ?_⟩
  have hport : State.hIn { s with aIn := high ++ s.hIn } = s.hIn := halfOperand_append high s.hIn
  rw [exec_of_isWidening i _ hi, hport]

/-! ### Rounding to the nearest value of a strictly increasing scale

The scale is a function H: the integers times 2^k for U3 alone, and `halfMagnitudeUnits` for U2. -/

section
variable {H : Nat → Nat} {x y n m : Nat}

/-- n is the point of the scale nearest to x, a tie going to the even one. -/
def IsNearestEvenOn (H : Nat → Nat) (x n : Nat) : Prop :=
  ∀ k : Nat, distance x (H n) ≤ distance x (H k) ∧
    (distance x (H n) = distance x (H k) → k = n ∨ n % 2 = 0)

theorem isNearestEven_iff : IsNearestEven x n ↔ IsNearestEvenOn halfMagnitudeUnits x n := Iff.rfl

/-- Between two neighbours, below their midpoint, or on it with the lower one even, the lower one is the
nearest. -/
theorem isNearestEvenOn_lower (hH : StrictMono H) (hlo : H n ≤ x) (hhi : x < H (n + 1))
    (hmid : x - H n < H (n + 1) - x ∨ x - H n = H (n + 1) - x ∧ n % 2 = 0) :
    IsNearestEvenOn H x n := by
  intro k
  unfold distance
  rcases Nat.lt_trichotomy k n with hk | rfl | hk
  · have := hH hk
    omega
  · exact ⟨le_rfl, fun _ => .inl rfl⟩
  · have : H (n + 1) ≤ H k := hH.monotone hk
    omega

/-- Above the midpoint, or on it with the lower one odd, the upper one is. -/
theorem isNearestEvenOn_upper (hH : StrictMono H) (hlo : H n ≤ x) (hhi : x < H (n + 1))
    (hmid : H (n + 1) - x < x - H n ∨ H (n + 1) - x = x - H n ∧ n % 2 = 1) :
    IsNearestEvenOn H x (n + 1) := by
  intro k
  unfold distance
  rcases Nat.lt_trichotomy k (n + 1) with hk | rfl | hk
  · have := hH.monotone (Nat.le_of_lt_succ hk)
    omega
  · exact ⟨le_rfl, fun _ => .inl rfl⟩
  · have := hH hk
    omega

/-- Above the midpoint of n and n + 1, or on it where n is odd, the nearest is n + 1 or more. -/
theorem IsNearestEvenOn.lt_of_midpoint (hH : StrictMono H) (h : IsNearestEvenOn H x m)
    (hmid : H n + H (n + 1) < 2 * x ∨ H n + H (n + 1) = 2 * x ∧ n % 2 = 1) : n < m := by
  by_contra hc
  have hstep := hH (Nat.lt_add_one n)
  obtain ⟨hle, htie⟩ := h (n + 1)
  rcases Nat.lt_or_eq_of_le (Nat.not_lt.mp hc) with hmn | rfl
  · have := hH hmn
    unfold distance at hle
    omega
  · unfold distance at hle htie
    omega

/-- Below it, or on it where n is even, the nearest is n or less. -/
theorem IsNearestEvenOn.le_of_midpoint (hH : StrictMono H) (h : IsNearestEvenOn H x m)
    (hmid : 2 * x < H n + H (n + 1) ∨ 2 * x = H n + H (n + 1) ∧ n % 2 = 0) : m ≤ n := by
  by_contra hc
  have hstep := hH (Nat.lt_add_one n)
  obtain ⟨hle, htie⟩ := h n
  have hnm : n + 1 ≤ m := Nat.not_le.mp hc
  rcases Nat.lt_or_eq_of_le hnm with hnm | rfl
  · have := hH hnm
    unfold distance at hle
    omega
  · unfold distance at hle htie
    omega

/-- Rounding to nearest keeps the order (R86). -/
theorem IsNearestEvenOn.mono (hH : StrictMono H) (hx : IsNearestEvenOn H x n)
    (hy : IsNearestEvenOn H y m) (hxy : x ≤ y) : n ≤ m := by
  by_contra hc
  have hmn : m < n := Nat.not_le.mp hc
  have hstep := hH hmn
  obtain ⟨hle, htie⟩ := hx m
  obtain ⟨hle', htie'⟩ := hy n
  obtain ⟨hbetween, -⟩ := hx (m + 1)
  have hlow := hH (Nat.lt_add_one m)
  have hhigh : H (m + 1) ≤ H n := hH.monotone hmn
  unfold distance at hle htie hle' htie' hbetween
  have hnext : m + 1 ≤ n := hmn
  rcases Nat.lt_or_eq_of_le hnext with hlt | rfl
  · have := hH hlt
    omega
  · omega

theorem IsNearestEvenOn.unique (hH : StrictMono H) (hn : IsNearestEvenOn H x n)
    (hm : IsNearestEvenOn H x m) : n = m :=
  Nat.le_antisymm (hn.mono hH hm le_rfl) (hm.mono hH hn le_rfl)

/-- A point of the scale is nearest to itself. -/
theorem isNearestEvenOn_self (hH : StrictMono H) (n : Nat) : IsNearestEvenOn H (H n) n :=
  isNearestEvenOn_lower hH le_rfl (hH (Nat.lt_add_one n)) (by
    have := hH (Nat.lt_add_one n)
    omega)

end

/-! ### The quotient and the bits below it -/

/-- The increment of `roundShift` against the remainder: above a half, or on it where the quotient is odd. -/
theorem roundShift_cases (x : Nat) {k : Nat} (hk : 1 ≤ k) :
    (roundShift x k = x / 2 ^ k ∧
      (2 * (x % 2 ^ k) < 2 ^ k ∨ 2 * (x % 2 ^ k) = 2 ^ k ∧ x / 2 ^ k % 2 = 0)) ∨
    (roundShift x k = x / 2 ^ k + 1 ∧
      (2 ^ k < 2 * (x % 2 ^ k) ∨ 2 * (x % 2 ^ k) = 2 ^ k ∧ x / 2 ^ k % 2 = 1)) := by
  obtain ⟨k, rfl⟩ := Nat.exists_eq_add_of_le' hk
  have hguard := guardBit_iff_half_le x k
  have hsticky := stickyBits_iff_ne_zero_ne_half x k
  have hpos := Nat.two_pow_pos (k + 1)
  simp only [roundShift, Nat.add_sub_cancel, hguard, hsticky]
  split_ifs with h
  · right; omega
  · left; omega

/-- The magnitude x, on the scale, is X in the unit of X's cut at bit k: the quotient of X by 2^k is the
pattern at or below x, the remainder is what lies above it, and 2^k is the distance to the next pattern. -/
def IsCutAt (H : Nat → Nat) (x X k : Nat) : Prop :=
  ∃ u : Nat, 0 < u ∧ x = H (X / 2 ^ k) + X % 2 ^ k * u ∧ H (X / 2 ^ k + 1) = H (X / 2 ^ k) + 2 ^ k * u

theorem mod_two_pow_mul_lt (X k : Nat) {u : Nat} (hu : 0 < u) : X % 2 ^ k * u < 2 ^ k * u :=
  Nat.mul_lt_mul_of_pos_right (Nat.mod_lt _ (Nat.two_pow_pos k)) hu

section
variable {H : Nat → Nat} {x X k n : Nat}

theorem IsCutAt.isNearestEvenOn (hH : StrictMono H) (h : IsCutAt H x X k) (hk : 1 ≤ k) :
    IsNearestEvenOn H x (roundShift X k) := by
  obtain ⟨u, hu, hx, hnext⟩ := h
  have hlt := mod_two_pow_mul_lt X k hu
  have hbelow : 2 * (X % 2 ^ k * u) < 2 ^ k * u ↔ 2 * (X % 2 ^ k) < 2 ^ k := by
    rw [← Nat.mul_assoc, Nat.mul_lt_mul_right hu]
  have habove : 2 ^ k * u < 2 * (X % 2 ^ k * u) ↔ 2 ^ k < 2 * (X % 2 ^ k) := by
    rw [← Nat.mul_assoc, Nat.mul_lt_mul_right hu]
  have htie : 2 * (X % 2 ^ k * u) = 2 ^ k * u ↔ 2 * (X % 2 ^ k) = 2 ^ k := by
    rw [← Nat.mul_assoc, Nat.mul_left_inj hu.ne']
  rcases roundShift_cases X hk with ⟨hround, hcase⟩ | ⟨hround, hcase⟩ <;> rw [hround]
  · rw [← hbelow, ← htie] at hcase
    exact isNearestEvenOn_lower hH (by omega) (by omega) (by omega)
  · rw [← habove, ← htie] at hcase
    exact isNearestEvenOn_upper hH (by omega) (by omega) (by omega)

/-- A point of the scale leaves no remainder. -/
theorem IsCutAt.mod_eq_zero (hH : StrictMono H) (h : IsCutAt H (H n) X k) : X % 2 ^ k = 0 := by
  obtain ⟨u, hu, hx, hnext⟩ := h
  have hlt := mod_two_pow_mul_lt X k hu
  have hlo : X / 2 ^ k ≤ n := hH.le_iff_le.mp (by omega)
  have hhi : n < X / 2 ^ k + 1 := hH.lt_iff_lt.mp (by omega)
  obtain rfl : n = X / 2 ^ k := by omega
  exact (Nat.mul_eq_zero.mp (by omega : X % 2 ^ k * u = 0)).resolve_right hu.ne'

end

theorem mul_two_pow_strictMono (k : Nat) : StrictMono fun j => j * 2 ^ k :=
  fun _ _ h => Nat.mul_lt_mul_of_pos_right h (Nat.two_pow_pos k)

/-- Settles O28: t and the fraction are the quotient and the remainder of `t * 2^k + n`, whose bits g and s
are, on the scale of the multiples of 2^k. -/
theorem roundingGivesTheNearestInteger : Obligations.RoundingGivesTheNearestInteger := by
  intro t n k g s hk hn hg hs
  have hquot : (t.toNat * 2 ^ k + n) / 2 ^ k = t.toNat := by
    rw [Nat.add_comm, Nat.add_mul_div_right _ _ (Nat.two_pow_pos k), Nat.div_eq_of_lt hn, Nat.zero_add]
  have hrem : (t.toNat * 2 ^ k + n) % 2 ^ k = n := by
    rw [Nat.mul_comm, Nat.mul_add_mod, Nat.mod_eq_of_lt hn]
  have hcut : IsCutAt (fun j => j * 2 ^ k) (t.toNat * 2 ^ k + n) (t.toNat * 2 ^ k + n) k :=
    ⟨1, Nat.one_pos, by simp only [hquot, hrem, Nat.mul_one], by simp only [Nat.mul_one, Nat.succ_mul]⟩
  have hrne : (rne t g s).toNat = roundShift (t.toNat * 2 ^ k + n) k := by
    obtain ⟨j, rfl⟩ := Nat.exists_eq_add_of_le' hk
    apply rne_toNat_eq_roundShift hquot.symm
    · rw [Nat.add_sub_cancel, guardBit_iff_half_le, hrem, hg]
    · rw [Nat.add_sub_cancel, stickyBits_iff_ne_zero_ne_half, hrem, hs]
  rw [hrne]
  exact hcut.isNearestEvenOn (mul_two_pow_strictMono k) hk

/-! ### What U2 presents to U3, with the two branches as one -/

/-- The word that U2 cuts: `{hexp, fm}` in the normal branch (R79) and M below it (R81). -/
def cutWord (f : Single) : Nat :=
  if 1 ≤ hexp f then ((singleExp f).toNat - 112) * 2 ^ 23 + (singleMant f).toNat else significand f

/-- How many of its low bits U2 cuts off: 13 in the normal branch and `sh` below it. -/
def cutBits (f : Single) : Nat := if 1 ≤ hexp f then 13 else narrowShift f

/-- The half pattern that U2 rounds to, before any overflow is looked at: the exponent range goes on above
(R86). -/
def nearestHalf (f : Single) : Nat := roundShift (cutWord f) (cutBits f)

section
variable {f : Single} {alt : Bool} {p : RoundPorts}

theorem cutWord_of_normal (h : 1 ≤ hexp f) :
    cutWord f = ((singleExp f).toNat - 112) * 2 ^ 23 + (singleMant f).toNat := if_pos h

theorem cutWord_of_hexp_nonpos (h : hexp f ≤ 0) : cutWord f = significand f := if_neg (by omega)

theorem cutBits_of_normal (h : 1 ≤ hexp f) : cutBits f = 13 := if_pos h

theorem cutBits_of_hexp_nonpos (h : hexp f ≤ 0) : cutBits f = narrowShift f := if_neg (by omega)

theorem one_le_cutBits (f : Single) : 1 ≤ cutBits f := by
  by_cases h : 1 ≤ hexp f
  · rw [cutBits_of_normal h]
    decide
  · rw [cutBits_of_hexp_nonpos (by omega)]
    exact (by decide : 1 ≤ 14).trans (narrowShift_ge (by omega))

theorem nearestHalf_of_normal (h : 1 ≤ hexp f) : nearestHalf f =
    roundShift (((singleExp f).toNat - 112) * 2 ^ 23 + (singleMant f).toNat) 13 := by
  rw [nearestHalf, cutWord_of_normal h, cutBits_of_normal h]

theorem nearestHalf_of_hexp_nonpos (h : hexp f ≤ 0) :
    nearestHalf f = roundShift (significand f) (narrowShift f) := by
  rw [nearestHalf, cutWord_of_hexp_nonpos h, cutBits_of_hexp_nonpos h]

theorem roundShift_eq_zero {x k : Nat} (hx : x < 2 ^ (k - 1)) : roundShift x k = 0 := by
  have hk : x < 2 ^ k := hx.trans_le (Nat.pow_le_pow_right (by decide) (Nat.sub_le k 1))
  rw [roundShift, Nat.div_eq_of_lt hk, Nat.div_eq_of_lt hx]
  rfl

/-- The cut to zero (R80) is what rounding gives there. -/
theorem nearestHalf_of_tiny (h : hexp f ≤ 0) (hsh : 24 < narrowShift f) : nearestHalf f = 0 := by
  rw [nearestHalf_of_hexp_nonpos h]
  exact roundShift_eq_zero
    ((significand_lt f).trans_le (Nat.pow_le_pow_right (by decide) (Nat.le_sub_one_of_lt hsh)))

theorem finiteMag_toNat_eq_nearestHalf (h : hexp f ≤ maxNormalExp alt) :
    (finiteMag f alt).toNat = nearestHalf f := by
  by_cases h1 : 1 ≤ hexp f
  · rw [finiteMag_toNat_of_normal h1 h, nearestHalf_of_normal h1]
  by_cases hsh : 24 < narrowShift f
  · rw [finiteMag_of_tiny (by omega) hsh, nearestHalf_of_tiny (by omega) hsh]
    rfl
  · rw [finiteMag_toNat_of_subnormal (by omega) (by omega), nearestHalf_of_hexp_nonpos (by omega)]

/-- Beyond the last normal exponent, the rounded pattern is beyond the last one too. -/
theorem overflowMag_le_nearestHalf (h : maxNormalExp alt < hexp f) :
    (overflowMag alt).toNat ≤ nearestHalf f := by
  have hbound : ((overflowMag alt).toNat : Int) ≤ (maxNormalExp alt + 1) * 2 ^ 10 ∧
      0 ≤ maxNormalExp alt := by cases alt <;> decide
  rw [nearestHalf_of_normal (by omega), roundShift]
  rw [hexp_eq] at h
  omega

/-- U2 holds the rounded pattern at the greatest magnitude of the flavour (R78, R83, R84). -/
theorem narrowMag_toNat_of_isFinite (hf : IsFinite f) :
    (narrowMag f alt).toNat = min (nearestHalf f) (overflowMag alt).toNat := by
  by_cases hover : maxNormalExp alt < hexp f
  · rw [narrowMag_of_isFinite hf, saturateAlt_toNat, finiteMag_of_overflow hover,
      Nat.min_eq_right (overflowMag_le_nearestHalf hover)]
    cases alt <;> rfl
  · have heq := finiteMag_toNat_eq_nearestHalf (Int.not_lt.mp hover)
    rw [narrowMag_of_isFinite hf, saturateAlt_toNat, heq]
    cases alt with
    | false => exact (Nat.min_eq_left (heq ▸ finiteMag_ieee_le)).symm
    | true => exact Nat.min_comm _ _

/-! ### The cut on the scale of the half patterns -/

theorem isCutAt_of_normal (h : 1 ≤ hexp f) :
    IsCutAt halfMagnitudeUnits (singleUnits f) (cutWord f) (cutBits f) := by
  have hm := (singleMant f).isLt
  have hlo : 113 ≤ (singleExp f).toNat := by rw [hexp_eq] at h; omega
  obtain ⟨e, he⟩ := Nat.exists_eq_add_of_le hlo
  have hquot : ((e + 1) * 2 ^ 23 + (singleMant f).toNat) / 2 ^ 13 =
      (e + 1) * 1024 + (singleMant f).toNat / 2 ^ 13 := by omega
  have hrem : ((e + 1) * 2 ^ 23 + (singleMant f).toNat) % 2 ^ 13 = (singleMant f).toNat % 2 ^ 13 := by
    omega
  have hsplit : 2 ^ 23 + (singleMant f).toNat =
      (1024 + (singleMant f).toNat / 2 ^ 13) * 2 ^ 13 + (singleMant f).toNat % 2 ^ 13 := by omega
  have hunit : ((e + 1) * 1024 + (singleMant f).toNat / 2 ^ 13) / 1024 - 1 + 125 = 13 + (e + 112) := by
    omega
  rw [cutWord_of_normal h, cutBits_of_normal h, singleUnits_of_exp_pos (by omega), he,
    show 113 + e - 112 = e + 1 by omega, show 113 + e - 1 = e + 112 by omega]
  refine ⟨2 ^ (e + 112), Nat.two_pow_pos _, ?_, ?_⟩ <;> rw [hquot]
  · rw [hrem, halfMagnitudeUnits_of_exp_pos (by omega) (by omega), hsplit]
    ring
  · rw [halfMagnitudeUnits_succ, hunit, Nat.pow_add]

theorem isCutAt_of_hexp_nonpos (h : hexp f ≤ 0) (he : 1 ≤ (singleExp f).toNat) :
    IsCutAt halfMagnitudeUnits (singleUnits f) (cutWord f) (cutBits f) := by
  have hle := significand_div_le h
  have hsh := narrowShift_eq f h
  have hunit : 2 ^ narrowShift f * 2 ^ ((singleExp f).toNat - 1) = 2 ^ 125 := by
    rw [← Nat.pow_add]
    congr 1
    omega
  rw [cutWord_of_hexp_nonpos h, cutBits_of_hexp_nonpos h, singleUnits_of_exp_pos he]
  refine ⟨2 ^ ((singleExp f).toNat - 1), Nat.two_pow_pos _, ?_, ?_⟩
  · rw [halfMagnitudeUnits_of_lt (by omega), ← hunit, ← Nat.mul_assoc, ← Nat.add_mul,
      Nat.div_add_mod']
    rfl
  · rw [halfMagnitudeUnits_succ, hunit]
    congr 2
    omega

theorem isCutAt_singleUnits (he : 1 ≤ (singleExp f).toNat) :
    IsCutAt halfMagnitudeUnits (singleUnits f) (cutWord f) (cutBits f) := by
  by_cases h : 1 ≤ hexp f
  · exact isCutAt_of_normal h
  · exact isCutAt_of_hexp_nonpos (by omega) he

/-- U2 rounds to the nearest pattern (R86); a zero and a single subnormal are nearest to 0. -/
theorem isNearestEven_nearestHalf (f : Single) : IsNearestEven (singleUnits f) (nearestHalf f) := by
  rw [isNearestEven_iff]
  by_cases he : 1 ≤ (singleExp f).toNat
  · exact (isCutAt_singleUnits he).isNearestEvenOn halfMagnitudeUnits_strictMono (one_le_cutBits f)
  · have h0 : (singleExp f).toNat = 0 := by omega
    have hsmall := singleUnits_lt f
    have hzero : nearestHalf f = 0 := by
      have hexp : hexp f = -112 := by rw [hexp_eq, h0]; rfl
      exact nearestHalf_of_tiny (by omega) (by unfold narrowShift; omega)
    have h1 : halfMagnitudeUnits (0 + 1) = 2 ^ 125 := by decide
    rw [h0] at hsmall
    rw [hzero]
    have hbase : halfMagnitudeUnits 0 = 0 := rfl
    exact isNearestEvenOn_lower halfMagnitudeUnits_strictMono (by omega) (by omega) (by omega)

/-- A representable magnitude is rounded to its own pattern. -/
theorem nearestHalf_of_units {n : Nat} (h : singleUnits f = halfMagnitudeUnits n) : nearestHalf f = n :=
  IsNearestEvenOn.unique halfMagnitudeUnits_strictMono (isNearestEven_nearestHalf f)
    (h ▸ isNearestEvenOn_self halfMagnitudeUnits_strictMono n)

theorem lt_nearestHalf {n : Nat}
    (hmid : halfMagnitudeUnits n + halfMagnitudeUnits (n + 1) < 2 * singleUnits f ∨
      halfMagnitudeUnits n + halfMagnitudeUnits (n + 1) = 2 * singleUnits f ∧ n % 2 = 1) :
    n < nearestHalf f :=
  IsNearestEvenOn.lt_of_midpoint halfMagnitudeUnits_strictMono (isNearestEven_nearestHalf f) hmid

theorem nearestHalf_le {n : Nat}
    (hmid : 2 * singleUnits f < halfMagnitudeUnits n + halfMagnitudeUnits (n + 1) ∨
      2 * singleUnits f = halfMagnitudeUnits n + halfMagnitudeUnits (n + 1) ∧ n % 2 = 0) :
    nearestHalf f ≤ n :=
  IsNearestEvenOn.le_of_midpoint halfMagnitudeUnits_strictMono (isNearestEven_nearestHalf f) hmid

theorem nearestHalf_mono {g : Single} (h : singleUnits f ≤ singleUnits g) :
    nearestHalf f ≤ nearestHalf g :=
  IsNearestEvenOn.mono halfMagnitudeUnits_strictMono (isNearestEven_nearestHalf f)
    (isNearestEven_nearestHalf g) h

/-! ### The ports of U3 -/

/-- Where U2 uses U3, the operand is finite, and U3's sum is the magnitude before the saturation. -/
theorem finiteMag_of_roundPorts (hp : roundPorts f alt = some p) :
    IsFinite f ∧ finiteMag f alt = rne p.t p.g p.s := by
  unfold roundPorts at hp
  split_ifs at hp with hover h1 hsh
  · obtain ⟨hf, hmax⟩ := not_or.mp hover
    obtain rfl := Option.some.inj hp
    exact ⟨hf, finiteMag_of_normal h1 (Int.not_lt.mp hmax)⟩
  · obtain ⟨hf, -⟩ := not_or.mp hover
    obtain rfl := Option.some.inj hp
    exact ⟨hf, finiteMag_of_subnormal (by omega) (Nat.not_lt.mp hsh)⟩

/-- The guard and the sticky bit are bits of the word that is cut (R93). -/
theorem guard_sticky_of_roundPorts (hp : roundPorts f alt = some p) :
    1 ≤ (singleExp f).toNat ∧
    (p.g = true ↔ cutWord f / 2 ^ (cutBits f - 1) % 2 = 1) ∧
    (p.s = true ↔ cutWord f % 2 ^ (cutBits f - 1) ≠ 0) := by
  by_cases h1 : 1 ≤ hexp f
  · obtain ⟨-, rfl⟩ := roundPorts_of_normal hp h1
    rw [cutWord_of_normal h1, cutBits_of_normal h1]
    rw [hexp_eq] at h1
    refine ⟨by omega, normalGuard_eq_true_iff.trans ?_, normalSticky_eq_true_iff.trans ?_⟩ <;> omega
  · have h0 : hexp f ≤ 0 := by omega
    have hsh : narrowShift f ≤ 24 := by
      unfold roundPorts at hp
      split_ifs at hp with _ hsh
      exact Nat.not_lt.mp hsh
    have he := narrowShift_eq f h0
    obtain rfl := roundPorts_of_subnormal hp h0
    rw [cutWord_of_hexp_nonpos h0, cutBits_of_hexp_nonpos h0]
    exact ⟨by omega, subnormalGuard_eq_true_iff, subnormalSticky_eq_true_iff⟩

/-- A representable magnitude leaves nothing to round. -/
theorem ports_of_units {n : Nat} (hp : roundPorts f alt = some p)
    (h : singleUnits f = halfMagnitudeUnits n) : p.g = false ∧ p.s = false := by
  obtain ⟨he, hg, hs⟩ := guard_sticky_of_roundPorts hp
  have hzero := (h ▸ isCutAt_singleUnits he).mod_eq_zero halfMagnitudeUnits_strictMono
  obtain ⟨k, hk⟩ := Nat.exists_eq_add_of_le' (one_le_cutBits f)
  have hpos := Nat.two_pow_pos (k + 1)
  rw [hk] at hzero hg hs
  rw [Nat.add_sub_cancel, guardBit_iff_half_le, hzero] at hg
  rw [Nat.add_sub_cancel, stickyBits_iff_ne_zero_ne_half, hzero] at hs
  refine ⟨Bool.eq_false_of_not_eq_true fun h => ?_, Bool.eq_false_of_not_eq_true fun h => ?_⟩
  · have := hg.mp h
    omega
  · exact (hs.mp h).1 rfl

theorem rne_toNat_le (t : BitVec 15) (g s : Bool) : (rne t g s).toNat ≤ 0x8000 := by
  have ht := t.isLt
  rw [rne_toNat_eq_ite]
  split_ifs <;> omega

theorem finiteMag_alt_le : (finiteMag f true).toNat ≤ 0x8000 := by
  unfold finiteMag
  split_ifs
  · decide
  · exact rne_toNat_le _ _ _
  · decide
  · exact rne_toNat_le _ _ _

/-! ### The half that U2 gives, in parts -/

theorem narrowMag_extract_toNat :
    ((narrowMag f alt).extractLsb' 0 15).toNat = (narrowMag f alt).toNat := by
  have hle := narrowMag_le (f := f) (alt := alt)
  rw [BitVec.extractLsb'_toNat, Nat.shiftRight_zero, Nat.mod_eq_of_lt (by omega)]

@[simp] theorem halfSign_f2h : halfSign (f2h f alt) = singleSign f := halfSign_packHalf _ _

theorem halfMagnitude_f2h_toNat : (halfMagnitude (f2h f alt)).toNat = (narrowMag f alt).toNat := by
  rw [f2h, halfMagnitude_packHalf, narrowMag_extract_toNat]

theorem narrowMag_of_isNaN (hn : IsNaN f) : narrowMag f alt = nanMag alt := by
  rw [narrowMag, if_pos hn]

/-! ### What the operations answer for a finite single -/

theorem exec_f2hIeee_nearest {s : State} (hf : IsFinite s.fIn) :
    exec .f2hIeee s = .next { s with
      yOut := halfResult (singleSign s.fIn) (min (nearestHalf s.fIn) 0x7C00) } :=
  exec_f2hIeee_eq (narrowMag_toNat_of_isFinite hf)

theorem exec_f2hAlt_nearest {s : State} (hf : IsFinite s.fIn) :
    exec .f2hAlt s = .next { s with
      yOut := halfResult (singleSign s.fIn) (min (nearestHalf s.fIn) 0x7FFF) } :=
  exec_f2hAlt_eq (narrowMag_toNat_of_isFinite hf)

theorem exec_f2hIeee_infinity {s : State} (he : singleExp s.fIn = 255#8) (hm : singleMant s.fIn = 0#23) :
    exec .f2hIeee s = .next { s with yOut := halfResult (singleSign s.fIn) 0x7C00 } :=
  exec_f2hIeee_eq (by rw [narrowMag_of_infinity he hm]; rfl)

theorem exec_f2hAlt_infinity {s : State} (he : singleExp s.fIn = 255#8) (hm : singleMant s.fIn = 0#23) :
    exec .f2hAlt s = .next { s with yOut := halfResult (singleSign s.fIn) 0x7FFF } :=
  exec_f2hAlt_eq (by rw [narrowMag_of_infinity he hm]; rfl)

theorem exec_f2hIeee_nan {s : State} (hn : IsNaN s.fIn) :
    exec .f2hIeee s = .next { s with yOut := halfResult (singleSign s.fIn) 0x7E00 } :=
  exec_f2hIeee_eq (by rw [narrowMag_of_isNaN hn]; rfl)

theorem exec_f2hAlt_nan {s : State} (hn : IsNaN s.fIn) :
    exec .f2hAlt s = .next { s with yOut := halfResult (singleSign s.fIn) 0x7FFF } :=
  exec_f2hAlt_eq (by rw [narrowMag_of_isNaN hn]; rfl)

end

/-! ### Obligations about narrowing -/

/-- Settles O29: `finiteMag_of_roundPorts` gives the sum, and `saturateAlt_toNat` holds it in alt. -/
theorem narrowingGoesThroughItsRoundingEngine : Obligations.NarrowingGoesThroughItsRoundingEngine := by
  intro s p hop hp
  obtain ⟨hf, hmag⟩ := finiteMag_of_roundPorts hp
  refine ⟨by rw [State.rOut, hp]; rfl, ?_⟩
  rw [step_narrow hop, State.hOut, zext32_f2h, narrowMag_of_isFinite hf, saturateAlt_toNat, hmag]

/-- Settles O30: the bounds of `finiteMag` and `narrowMag`. -/
theorem noMagnitudeBitIsLost : Obligations.NoMagnitudeBitIsLost :=
  fun _ => ⟨fun _ => ⟨finiteMag_ieee_le, finiteMag_alt_le⟩, fun _ => finiteMag_le_of_hexp_nonpos,
    fun _ => ⟨narrowMag_le, halfMagnitude_f2h_toNat⟩⟩

theorem normalTrunc_eq_hexp {f : Single} (hlo : 1 ≤ hexp f) (hhi : hexp f ≤ 31) :
    ((normalTrunc f).toNat : Int) = hexp f * 2 ^ 10 + (singleMant f).toNat / 2 ^ 13 := by
  rw [normalTrunc_toNat hlo hhi]
  rw [hexp_eq] at hlo ⊢
  omega

theorem subnormalTrunc_eq_and_le {f : Single} (hlo : 14 ≤ narrowShift f) :
    (subnormalTrunc f).toNat = significand f / 2 ^ narrowShift f ∧ (subnormalTrunc f).toNat ≤ 1023 := by
  have h0 : hexp f ≤ 0 := by unfold narrowShift at hlo; omega
  rw [subnormalTrunc_toNat h0]
  exact ⟨rfl, significand_div_le h0⟩

theorem hexp_bounds (f : Single) : -112 ≤ hexp f ∧ hexp f ≤ 143 := by
  have he := (singleExp f).isLt
  rw [hexp_eq]
  omega

/-- Settles O31: each cut keeps a number below the width it is cut to. -/
theorem noDatapathStepOverflows : Obligations.NoDatapathStepOverflows := by
  refine ⟨fun f => ?_, fun h => ⟨widenExp_toNat h, fun hm => ?_⟩, fun t g s => ?_,
    fun _ _ => narrowMag_extract_toNat⟩
  · obtain ⟨hlo, hhi⟩ := hexp_bounds f
    exact ⟨hlo, hhi, normalTrunc_eq_hexp, fun h _ => subnormalTrunc_eq_and_le h⟩
  · have hp := msbIndex_le _ hm
    have hE := renormExp_toNat hm
    exact ⟨hE, by omega, by omega, renormMant_toNat h⟩
  · simp only [getElem_eq_true_iff, Nat.pow_zero, Nat.div_one]
    exact ⟨rne_toNat_eq_ite t g s, rne_toNat_le t g s⟩

/-- Settles O33: the NaN is tested for before everything else. -/
theorem naNNarrowsToOneWordOfItsSign : Obligations.NaNNarrowsToOneWordOfItsSign :=
  fun _ hn => ⟨exec_f2hIeee_nan hn, exec_f2hAlt_nan hn⟩

/-- The exponent is a multiple of 2^10 above the cut, so the bits at and below it are the mantissa's. -/
theorem roundShift_normal (e m : Nat) : roundShift (e * 2 ^ 23 + m) 13 =
    e * 2 ^ 10 + m / 2 ^ 13 +
      if m / 2 ^ 12 % 2 = 1 ∧ (m % 2 ^ 12 ≠ 0 ∨ (e * 2 ^ 10 + m / 2 ^ 13) % 2 = 1) then 1 else 0 := by
  have hquot : (e * 2 ^ 23 + m) / 2 ^ 13 = e * 2 ^ 10 + m / 2 ^ 13 := by omega
  have hguard : (e * 2 ^ 23 + m) / 2 ^ 12 % 2 = m / 2 ^ 12 % 2 := by omega
  have hsticky : (e * 2 ^ 23 + m) % 2 ^ 12 = m % 2 ^ 12 := by omega
  simp only [roundShift, hquot, hguard, hsticky]

/-- Settles O36: the statement's t and inc add up to the rounded pattern, which IEEE's last exponent keeps at
0x7C00 or below. -/
theorem normalRangeNarrowsByRounding : Obligations.NormalRangeNarrowsByRounding := by
  intro s t inc ht hinc hlo
  have hm := (singleMant s.fIn).isLt
  have hround : nearestHalf s.fIn = t + inc := by
    rw [nearestHalf_of_normal (by rw [hexp_eq]; omega), roundShift_normal, hinc, ht]
  have hinc1 : inc ≤ 1 := by rw [hinc]; split_ifs <;> decide
  have hfin : (singleExp s.fIn).toNat ≤ 143 → IsFinite s.fIn := fun h =>
    isFinite_of_hexp_le (by rw [hexp_eq]; omega)
  constructor
  · intro hhi
    rw [exec_f2hIeee_nearest (hfin (by omega)), hround, Nat.min_eq_left (by omega)]
  · intro hhi
    rw [exec_f2hAlt_nearest (hfin hhi), hround, Nat.min_comm]

/-- Settles O40: 65536 is the pattern 0x7C00, and 130976 is the midpoint of 0x7FFE and 0x7FFF. -/
theorem altSaturatesAbove130976 : Obligations.AltSaturatesAbove130976 := by
  intro s hf
  have hpoint : units 65536 = halfMagnitudeUnits 0x7C00 := by decide
  have hmid : halfMagnitudeUnits 0x7FFE + halfMagnitudeUnits (0x7FFE + 1) = 2 * units 130976 := by decide
  have hbelow : halfMagnitudeUnits 0x7FFD + halfMagnitudeUnits (0x7FFD + 1) < 2 * units 130976 := by decide
  refine ⟨fun h => ?_, fun h => ?_, fun h => ?_⟩ <;> rw [exec_f2hAlt_nearest hf]
  · rw [nearestHalf_of_units (h.trans hpoint)]
    rfl
  · have hle := nearestHalf_le (f := s.fIn) (n := 0x7FFE) (.inr ⟨by rw [h, hmid], by decide⟩)
    have hlt := lt_nearestHalf (f := s.fIn) (n := 0x7FFD) (.inl (by rw [h]; exact hbelow))
    rw [show nearestHalf s.fIn = 0x7FFE by omega]
    rfl
  · have hlt := lt_nearestHalf (f := s.fIn) (n := 0x7FFE)
      (.inl (hmid ▸ Nat.mul_lt_mul_of_pos_left h (by decide)))
    rw [Nat.min_eq_right (by omega)]

theorem min_eq_ite_le (n k : Nat) : min n (k + 1) = if n ≤ k then n else k + 1 := by
  split_ifs <;> omega

/-- Settles O41: the pattern is `nearestHalf`, and 0x7BFF is 65504 on a strictly increasing scale. -/
theorem ieeeNarrowingIsCorrectlyRounded : Obligations.IeeeNarrowingIsCorrectlyRounded := by
  refine fun s => ⟨fun hf => ⟨nearestHalf s.fIn, isNearestEven_nearestHalf _, ?_, ?_⟩, fun he hn => ?_⟩
  · rw [show units 65504 = halfMagnitudeUnits 0x7BFF by decide]
    exact halfMagnitudeUnits_strictMono.le_iff_le.symm
  · rw [exec_f2hIeee_nearest hf, min_eq_ite_le]
  · exact exec_f2hIeee_infinity he (by_contra fun hm => hn ⟨he, hm⟩)

/-- Settles O42: as in IEEE, with 0x7FFF and 131008 for the greatest magnitude. -/
theorem altNarrowingIsCorrectlyRounded : Obligations.AltNarrowingIsCorrectlyRounded := by
  refine fun s => ⟨fun hf => ⟨nearestHalf s.fIn, isNearestEven_nearestHalf _, ?_, ?_⟩, fun he hn => ?_⟩
  · rw [show units 131008 = halfMagnitudeUnits 0x7FFF by decide]
    exact halfMagnitudeUnits_strictMono.le_iff_le.symm
  · rw [exec_f2hAlt_nearest hf, Nat.min_def]
  · exact exec_f2hAlt_infinity he (by_contra fun hm => hn ⟨he, hm⟩)

/-- Settles O45: 65520 and 65568 are the midpoints below and above the even pattern 0x7C00. -/
theorem flavoursNarrowAlikeUpTo65568 : Obligations.FlavoursNarrowAlikeUpTo65568 := by
  intro s
  have hlow : halfMagnitudeUnits 0x7BFF + halfMagnitudeUnits (0x7BFF + 1) = 2 * units 65520 := by decide
  have hhigh : halfMagnitudeUnits 0x7C00 + halfMagnitudeUnits (0x7C00 + 1) = 2 * units 65568 := by decide
  have hle : singleUnits s.fIn ≤ units 65568 → nearestHalf s.fIn ≤ 0x7C00 := fun h =>
    nearestHalf_le (by omega)
  have hge : units 65520 ≤ singleUnits s.fIn → 0x7C00 ≤ nearestHalf s.fIn := fun h =>
    lt_nearestHalf (n := 0x7BFF) (by omega)
  have hgt : units 65568 < singleUnits s.fIn → 0x7C01 ≤ nearestHalf s.fIn := fun h =>
    lt_nearestHalf (n := 0x7C00) (by omega)
  refine ⟨fun hf h => ?_, fun hf hlo hhi => ?_, fun hf h => ⟨?_, ?_⟩, fun he => ?_⟩
  · have heq : min (nearestHalf s.fIn) 0x7C00 = min (nearestHalf s.fIn) 0x7FFF := by
      have := hle h
      omega
    exact ⟨_, exec_f2hIeee_nearest hf, by rw [exec_f2hAlt_nearest hf, heq]⟩
  · rw [exec_f2hAlt_nearest hf, Nat.le_antisymm (hle hhi) (hge hlo)]
    rfl
  · have := hgt h
    rw [exec_f2hIeee_nearest hf, Nat.min_eq_right (by omega)]
  · have := hgt h
    exact ⟨_, by omega, Nat.min_le_right _ _, exec_f2hAlt_nearest hf⟩
  · refine ⟨_, rfl, ?_⟩
    by_cases hm : singleMant s.fIn = 0#23
    · rw [if_pos hm]
      exact ⟨exec_f2hIeee_infinity he hm, exec_f2hAlt_infinity he hm⟩
    · rw [if_neg hm]
      exact ⟨exec_f2hIeee_nan ⟨he, hm⟩, exec_f2hAlt_nan ⟨he, hm⟩⟩

/-- Settles O46: rounding to nearest keeps the order, and so does holding at the greatest magnitude. -/
theorem narrowingIsMonotone : Obligations.NarrowingIsMonotone := by
  intro f g alt hf hg h
  rw [halfMagnitude_f2h_toNat, halfMagnitude_f2h_toNat, narrowMag_toNat_of_isFinite hf,
    narrowMag_toNat_of_isFinite hg]
  exact min_le_min_right _ (nearestHalf_mono h)

/-! ### Representable singles, and the round trip -/

section
variable {f : Single} {h : Half} {alt : Bool}

theorem isFinite_of_singleValue_eq_finite {b : Bool} {u : Nat} (hv : singleValue f = .finite b u) :
    IsFinite f ∧ (singleSign f == 1#1) = b ∧ singleUnits f = u := by
  unfold singleValue at hv
  split_ifs at hv with he hm
  exact ⟨he, Value.finite.inj hv⟩

theorem infinity_of_singleValue_eq_infinity {b : Bool} (hv : singleValue f = .infinity b) :
    (singleExp f = 255#8 ∧ singleMant f = 0#23) ∧ (singleSign f == 1#1) = b := by
  unfold singleValue at hv
  split_ifs at hv with he hm
  exact ⟨⟨he, hm⟩, Value.infinity.inj hv⟩

/-- The finite halfs of a flavour are those that no overflow is held at, but for alt's greatest. -/
theorem halfMagnitude_le_overflowMag (h31 : halfExp h = 31#5 → alt = true) :
    (halfMagnitude h).toNat ≤ (overflowMag alt).toNat := by
  have hm := (halfMant h).isLt
  have he := (halfExp h).isLt
  cases alt with
  | true => exact Nat.le_of_lt_succ (halfMagnitude h).isLt
  | false =>
    have hne : (halfExp h).toNat ≠ 31 := fun hc => by simpa using h31 (BitVec.eq_of_toNat_eq hc)
    rw [halfMagnitude_toNat_eq_fields]
    simp only [overflowMag, Bool.false_eq_true, if_false, BitVec.reduceToNat]
    omega

/-- A single of a half's value narrows to that half (R87). -/
theorem f2h_eq_of_value (hne : singleValue f ≠ .none) (hv : singleValue f = halfValue h alt) :
    f2h f alt = h := by
  by_cases h31 : halfExp h = 31#5 → alt = true
  · rw [halfValue_of_finite h31] at hv
    obtain ⟨hf, hs, hu⟩ := isFinite_of_singleValue_eq_finite hv
    refine half_eq_of_parts ((halfSign_f2h).trans (sign_eq_of_beq hs)) ?_
    rw [halfMagnitude_f2h_toNat, narrowMag_toNat_of_isFinite hf, nearestHalf_of_units hu,
      Nat.min_eq_left (halfMagnitude_le_overflowMag h31)]
  obtain ⟨he, ha⟩ := Classical.not_imp.mp h31
  obtain rfl := Bool.eq_false_of_not_eq_true ha
  have hm : halfMant h = 0#10 := by_contra fun hm => hne (hv.trans (halfValue_of_isHalfNaN ⟨he, hm⟩))
  rw [halfValue_of_infinity he hm] at hv
  obtain ⟨⟨hfe, hfm⟩, hs⟩ := infinity_of_singleValue_eq_infinity hv
  refine half_eq_of_parts ((halfSign_f2h).trans (sign_eq_of_beq hs)) ?_
  rw [halfMagnitude_f2h_toNat, narrowMag_of_infinity hfe hfm, halfMagnitude_toNat_eq_fields, he, hm]
  rfl

/-- And there is nothing to round on the way. -/
theorem ports_of_value {p : RoundPorts} (hp : roundPorts f alt = some p)
    (hv : singleValue f = halfValue h alt) : p.g = false ∧ p.s = false := by
  obtain ⟨hf, -⟩ := finiteMag_of_roundPorts hp
  rw [singleValue_of_isFinite hf] at hv
  unfold halfValue at hv
  split_ifs at hv
  exact ports_of_units hp (Value.finite.inj hv).2

/-- Narrowing in the same flavour is a left inverse of widening (R88). -/
theorem f2h_h2f (hn : IsHalfNaN h → alt = true) : f2h (h2f h alt) alt = h :=
  f2h_eq_of_value (by rw [singleValue_h2f]; exact halfValue_ne_none hn) (singleValue_h2f h alt)

end

/-- Settles O43: the half is determined by its value (`f2h_eq_of_value`), and U3's ports carry no rest
(`ports_of_value`). -/
theorem representableSinglesNarrowExactly : Obligations.RepresentableSinglesNarrowExactly := by
  intro s h i alt hi hne hv
  have hexec : exec i s = .next { s with yOut := zext32 (f2h s.fIn alt) } := by
    rcases hi with ⟨rfl, rfl⟩ | ⟨rfl, rfl⟩
    · exact exec_of_isNarrowing .f2hIeee s (.inl rfl)
    · exact exec_of_isNarrowing .f2hAlt s (.inr rfl)
  refine ⟨?_, fun p hp => ports_of_value hp hv⟩
  rw [hexec, f2h_eq_of_value hne hv, zext32_eq_append]

/-- A widening, and a narrowing of what it leaves on the output in the same flavour, give the operand back. -/
theorem round_trip (s : State) {a : Word} {widen narrow : OpCode} (hw : narrows widen = false)
    (hn : narrows narrow = true) (halt : altOf widen = altOf narrow)
    (hnan : IsHalfNaN (halfOperand a) → altOf narrow = true) :
    ∃ t u : State, step (s.driveInputs widen a) = .next t ∧
      step (t.driveInputs narrow t.yOut) = .next u ∧ u.yOut = 0#16 ++ halfOperand a := by
  refine ⟨_, _, step_eq _, step_eq _, ?_⟩
  simp only [State.driveOutput_yOut, State.driveInputs_op, State.driveInputs_aIn]
  rw [coreOut_narrow _ _ hn, coreOut_widen _ _ hw, zext32_eq_append, halt, f2h_h2f hnan]

/-- Settles O44: the two steps are `f2h` of `h2f` in one flavour, which is the half again (`round_trip`). -/
theorem narrowingUndoesWidening : Obligations.NarrowingUndoesWidening := by
  rintro s a widen narrow (⟨rfl, rfl, hn⟩ | ⟨rfl, rfl⟩)
  · exact round_trip s rfl rfl rfl fun h => absurd h hn
  · exact round_trip s rfl rfl rfl fun _ => rfl

/-! ### The outputs that an operation can give -/

/-- The low bits of a widened word are those of its mantissa. -/
theorem packSingle_low_clear (s : BitVec 1) (e : BitVec 8) {m : BitVec 23} (h : m.toNat % 2 ^ 13 = 0) :
    (packSingle s e m).extractLsb' 0 13 = 0#13 := by
  apply BitVec.eq_of_toNat_eq
  rw [BitVec.extractLsb'_toNat, Nat.shiftRight_zero, packSingle_toNat]
  simp only [BitVec.toNat_ofNat]
  omega

/-- A half has 13 mantissa bits less than a single. -/
theorem h2f_low_clear (h : Half) (alt : Bool) : (h2f h alt).extractLsb' 0 13 = 0#13 := by
  rcases half_cases h alt with ⟨he, hm⟩ | ⟨he, hm⟩ | ⟨h0, h31⟩ | ⟨he, hm, rfl⟩ | ⟨hn, rfl⟩
  · rw [h2f_of_zero he hm]
    exact packSingle_low_clear _ _ rfl
  · rw [h2f_of_subnormal he hm]
    exact packSingle_low_clear _ _ (by rw [renormMant_toNat, Nat.shiftLeft_eq, Nat.mul_mod_left])
  · rw [h2f_of_normal h0 h31]
    exact packSingle_low_clear _ _ (by rw [widenMant_toNat, Nat.mul_mod_left])
  · rw [h2f_of_infinity he hm]
    exact packSingle_low_clear _ _ rfl
  · rw [h2f_of_isHalfNaN hn]
    exact packSingle_low_clear _ _ (by rw [quietMant_toNat, Nat.mul_mod_left])

/-- The exponent field of a widened finite half: 0 for a zero, and otherwise a normal one (R70). -/
theorem singleExp_h2f_of_finite {h : Half} {alt : Bool} (h31 : halfExp h = 31#5 → alt = true) :
    (singleExp (h2f h alt)).toNat = 0 ∧ singleMant (h2f h alt) = 0#23 ∨
      103 ≤ (singleExp (h2f h alt)).toNat ∧ (singleExp (h2f h alt)).toNat ≤ (halfExp h).toNat + 112 := by
  by_cases h0 : halfExp h = 0#5
  · by_cases hm : halfMant h = 0#10
    · rw [h2f_of_zero h0 hm, singleExp_packSingle, singleMant_packSingle]
      exact .inl ⟨rfl, rfl⟩
    · have hp := msbIndex_le _ hm
      rw [singleExp_h2f_of_subnormal h0 hm, h0]
      exact .inr ⟨Nat.le_add_left _ _, by simp only [BitVec.toNat_ofNat]; omega⟩
  · have hpos := halfExp_pos h0
    rw [singleExp_h2f_of_normal h0 h31]
    exact .inr ⟨by omega, le_rfl⟩

theorem widenedIeee_h2f (h : Half) : WidenedIeee (h2f h false) := by
  refine ⟨?_, h2f_low_clear h false⟩
  by_cases he : halfExp h = 31#5
  · right; right
    by_cases hm : halfMant h = 0#10
    · rw [h2f_of_infinity he hm, singleExp_packSingle, singleMant_packSingle]
      exact ⟨rfl, .inl rfl⟩
    · rw [h2f_of_isHalfNaN ⟨he, hm⟩, singleExp_packSingle]
      refine ⟨rfl, .inr ?_⟩
      simp only [singleMant_packSingle, quietMant_quietBit]
  · have hlt := (halfExp h).isLt
    have hne : (halfExp h).toNat ≠ 31 := fun hc => he (BitVec.eq_of_toNat_eq hc)
    rcases singleExp_h2f_of_finite (alt := false) (absurd · he) with hzero | ⟨hlo, hhi⟩
    · exact .inl hzero
    · exact .inr (.inl ⟨hlo, by omega⟩)

theorem widenedAlt_h2f (h : Half) : WidenedAlt (h2f h true) := by
  have hlt := (halfExp h).isLt
  refine ⟨(singleExp_h2f_of_finite fun _ => rfl).imp_right fun ⟨hlo, hhi⟩ => ⟨hlo, by omega⟩,
    h2f_low_clear h true⟩

theorem zext32_high_clear (h : Half) : (zext32 h).extractLsb' 16 16 = 0#16 := by
  have hlt := h.isLt
  apply BitVec.eq_of_toNat_eq
  rw [BitVec.extractLsb'_toNat, zext32_toNat, Nat.shiftRight_eq_div_pow, Nat.div_eq_of_lt hlt]
  rfl

theorem zext32_low_toNat (h : Half) : ((zext32 h).extractLsb' 0 15).toNat = (halfMagnitude h).toNat := by
  rw [BitVec.extractLsb'_toNat, zext32_toNat, halfMagnitude_toNat, Nat.shiftRight_zero]

/-- In IEEE only a NaN goes beyond the infinity, to the one canonical NaN (R75, R91). -/
theorem narrowMag_ieee_le_or_eq (f : Single) :
    (narrowMag f false).toNat ≤ 0x7C00 ∨ (narrowMag f false).toNat = 0x7E00 := by
  by_cases hn : IsNaN f
  · rw [narrowMag_of_isNaN hn]
    exact .inr rfl
  left
  by_cases he : singleExp f = 255#8
  · rw [narrowMag_of_infinity he (by_contra fun hm => hn ⟨he, hm⟩)]
    decide
  · rw [narrowMag_toNat_of_isFinite he]
    exact Nat.min_le_right _ _

theorem narrowedIeee_f2h (f : Single) : NarrowedIeee (zext32 (f2h f false)) := by
  refine ⟨zext32_high_clear _, ?_⟩
  rw [zext32_low_toNat, halfMagnitude_f2h_toNat]
  exact narrowMag_ieee_le_or_eq f

/-- Whatever its inputs, the wrapper's output is one that the selected operation can give. -/
theorem legalOutput_of_settled {s : State} (h : Settled s) : LegalOutput s := by
  obtain ⟨i, hop⟩ : ∃ i, s.op = encodeOp i := ⟨_, (encodeOp_decodeOp s.op).symm⟩
  rw [Settled, hop] at h
  rw [LegalOutput, hop, decodeOp_encodeOp, h]
  cases i with
  | h2fIeee => exact widenedIeee_h2f _
  | h2fAlt => exact widenedAlt_h2f _
  | f2hIeee => exact narrowedIeee_f2h _
  | f2hAlt => exact zext32_high_clear _

/-- Settles O9: a step settles the output (`step_eq`), and a settled output is legal. -/
theorem everyStepLeavesALegalSettledOutput : Obligations.EveryStepLeavesALegalSettledOutput :=
  fun s => ⟨_, step_eq s, rfl, legalOutput_of_settled rfl, rfl, rfl, rfl⟩

/-! ### The integer pseudocode (95_test_vectors.md section 4) -/

/-- The increment of the checker, of three bits given as numbers. -/
theorem checker_increment_eq_ite : ∀ g < 2, ∀ s < 2, ∀ t < 2,
    g &&& (s ||| t) = if g = 1 ∧ (s = 1 ∨ t = 1) then 1 else 0 := by decide

/-- The checker's `rne` on the quotient and on the bits below it. -/
theorem checker_rne_eq_roundShift (x k : Nat) :
    Checker.rne (x / 2 ^ k) (x / 2 ^ (k - 1) % 2) (if x % 2 ^ (k - 1) = 0 then 0 else 1) =
      roundShift x k := by
  have hbit : ∀ n : Nat, n % 2 < 2 := fun n => Nat.mod_lt n (by decide)
  have hsticky : (if x % 2 ^ (k - 1) = 0 then 0 else 1) < 2 := by split_ifs <;> decide
  rw [Checker.rne, Nat.and_one_is_mod, checker_increment_eq_ite _ (hbit _) _ hsticky _ (hbit _),
    roundShift]
  simp only [ite_eq_right_iff, Nat.zero_ne_one, imp_false, ne_eq]

/-- The checker's normal branch forms the same three ports from e and m. -/
theorem checker_rne_normal (e m : Nat) :
    Checker.rne (e * 2 ^ 10 + m / 2 ^ 13) (m / 2 ^ 12 % 2) (if m % 2 ^ 12 = 0 then 0 else 1) =
      roundShift (e * 2 ^ 23 + m) 13 := by
  have hquot : e * 2 ^ 10 + m / 2 ^ 13 = (e * 2 ^ 23 + m) / 2 ^ 13 := by omega
  have hguard : m / 2 ^ 12 % 2 = (e * 2 ^ 23 + m) / 2 ^ 12 % 2 := by omega
  have hsticky : m % 2 ^ 12 = (e * 2 ^ 23 + m) % 2 ^ 12 := by omega
  rw [hquot, hguard, hsticky]
  exact checker_rne_eq_roundShift _ 13

/-- The checker's magnitude of a single that is not beyond the last exponent, before the saturation. -/
def checkerRounded (e m : Nat) : Nat :=
  if 113 ≤ e then
    Checker.rne ((e - 112) * 2 ^ 10 + m / 2 ^ 13) (m / 2 ^ 12 % 2) (if m % 2 ^ 12 = 0 then 0 else 1)
  else if 24 < 126 - e then 0
  else Checker.rne ((2 ^ 23 + m) / 2 ^ (126 - e)) ((2 ^ 23 + m) / 2 ^ (126 - e - 1) % 2)
    (if (2 ^ 23 + m) % 2 ^ (126 - e - 1) = 0 then 0 else 1)

theorem encMag_of_exp_ne_255 {e m : Nat} {alt : Bool} (he : e ≠ 255) : Checker.encMag e m alt =
    if (if alt then 143 else 142) < e then (if alt then 0x7FFF else 0x7C00)
    else if alt = true ∧ 0x7FFF < checkerRounded e m then 0x7FFF else checkerRounded e m := by
  simp only [Checker.encMag, he, false_and, if_false]
  rfl

section
variable {f : Single} {alt : Bool}

theorem checkerRounded_eq_nearestHalf :
    checkerRounded (singleExp f).toNat (singleMant f).toNat = nearestHalf f := by
  unfold checkerRounded
  by_cases h1 : 1 ≤ hexp f
  · rw [nearestHalf_of_normal h1, if_pos (by rw [hexp_eq] at h1; omega), checker_rne_normal]
  have h0 : hexp f ≤ 0 := by omega
  have hsh : 126 - (singleExp f).toNat = narrowShift f := by
    have := narrowShift_eq f h0
    omega
  rw [if_neg (by rw [hexp_eq] at h1; omega), hsh]
  by_cases htiny : 24 < narrowShift f
  · rw [if_pos htiny, nearestHalf_of_tiny h0 htiny]
  · rw [if_neg htiny, nearestHalf_of_hexp_nonpos h0]
    exact checker_rne_eq_roundShift (significand f) (narrowShift f)

theorem min_eq_ite_and (alt : Bool) (n : Nat) : (if alt = true ∧ 0x7FFF < n then 0x7FFF else n) =
    if alt = true then min 0x7FFF n else n := by
  cases alt with
  | false => simp
  | true =>
    simp only [true_and, if_true]
    split_ifs <;> omega

/-- The checker's magnitude is U2's, in each of the classes. -/
theorem encMag_eq_narrowMag :
    Checker.encMag (singleExp f).toNat (singleMant f).toNat alt = (narrowMag f alt).toNat := by
  by_cases he : singleExp f = 255#8
  · by_cases hm : singleMant f = 0#23
    · rw [narrowMag_of_infinity he hm, he, hm]
      cases alt <;> rfl
    · have hm0 : (singleMant f).toNat ≠ 0 := fun hc => hm (BitVec.eq_of_toNat_eq hc)
      rw [narrowMag_of_isNaN ⟨he, hm⟩, he, Checker.encMag, if_pos ⟨rfl, hm0⟩]
      cases alt <;> rfl
  have he255 : (singleExp f).toNat ≠ 255 := fun hc => he (BitVec.eq_of_toNat_eq hc)
  have hmax : (if alt then 143 else 142) < (singleExp f).toNat ↔ maxNormalExp alt < hexp f := by
    have hbound : ((if alt then 143 else 142 : Nat) : Int) = maxNormalExp alt + 112 := by
      cases alt <;> rfl
    rw [hexp_eq]
    omega
  rw [encMag_of_exp_ne_255 he255, checkerRounded_eq_nearestHalf, narrowMag_of_isFinite he, saturateAlt_toNat]
  by_cases hover : maxNormalExp alt < hexp f
  · rw [if_pos (hmax.mpr hover), finiteMag_of_overflow hover]
    cases alt <;> rfl
  · rw [if_neg (hover ∘ hmax.mp), finiteMag_toNat_eq_nearestHalf (Int.not_lt.mp hover), min_eq_ite_and]

end

/-- The wrapper's word for a narrowing is the checker's number. -/
theorem enc_eq_zext32_f2h (f : Single) (alt : Bool) :
    zext32 (f2h f alt) = BitVec.ofNat 32 (Checker.enc f.toNat alt) := by
  rw [zext32_f2h, halfResult, Checker.enc, ← singleSign_toNat, ← singleExp_toNat, ← singleMant_toNat,
    encMag_eq_narrowMag]

/-- The wrapper's word for a widening is the checker's number. -/
theorem dec_eq_h2f_toNat (h : Half) (alt : Bool) : Checker.dec h.toNat alt = (h2f h alt).toNat := by
  simp only [Checker.dec, ← halfSign_toNat, ← halfExp_toNat, ← halfMant_toNat]
  rcases half_cases h alt with ⟨he, hm⟩ | ⟨he, hm⟩ | ⟨h0, h31⟩ | ⟨he, hm, rfl⟩ | ⟨hn, rfl⟩
  · rw [h2f_of_zero he hm, packSingle_toNat]
    simp [he, hm]
  · have hm0 : (halfMant h).toNat ≠ 0 := fun hc => hm (BitVec.eq_of_toNat_eq hc)
    have he0 : (halfExp h).toNat = 0 := by rw [he]; rfl
    have hlog : Nat.log2 (halfMant h).toNat = msbIndex (halfMant h) := by rw [msbIndex, if_neg hm]
    rw [h2f_of_subnormal he hm, packSingle_toNat, renormExp_toNat hm, renormMant_toNat,
      if_pos he0, if_neg hm0, hlog, Nat.shiftLeft_eq, Nat.shiftLeft_eq,
      show 0x3FF = 2 ^ 10 - 1 from rfl, Nat.and_two_pow_sub_one_eq_mod]
    rfl
  · have he0 : (halfExp h).toNat ≠ 0 := fun hc => h0 (BitVec.eq_of_toNat_eq hc)
    have hfin : ¬ ((halfExp h).toNat = 31 ∧ alt = false) := fun ⟨he, ha⟩ => by
      simp [h31 (BitVec.eq_of_toNat_eq he)] at ha
    rw [h2f_of_normal h0 h31, packSingle_toNat, widenExp_toNat, widenMant_toNat, if_neg he0, if_neg hfin]
  · rw [h2f_of_infinity he hm, packSingle_toNat]
    simp [he, hm]
  · obtain ⟨he, hm⟩ := id hn
    have hm0 : (halfMant h).toNat ≠ 0 := fun hc => hm (BitVec.eq_of_toNat_eq hc)
    rw [h2f_of_isHalfNaN hn, packSingle_toNat, he, if_neg (by decide), if_pos ⟨rfl, rfl⟩, if_neg hm0,
      ← Nat.shiftLeft_eq (halfMant h).toNat, nanForm_eq_add]
    exact (Nat.add_assoc _ _ _).symm

/-- Settles O47: the checker's numbers are the words' (`dec_eq_h2f_toNat`, `enc_eq_zext32_f2h`). -/
theorem operationsEqualTheIntegerPseudocode : Obligations.OperationsEqualTheIntegerPseudocode := by
  have hdec : ∀ (h : Half) (alt : Bool), h2f h alt = BitVec.ofNat 32 (Checker.dec h.toNat alt) :=
    fun h alt => by rw [dec_eq_h2f_toNat, BitVec.ofNat_toNat, BitVec.setWidth_eq]
  intro s
  rw [← hdec, ← hdec, ← enc_eq_zext32_f2h, ← enc_eq_zext32_f2h]
  exact ⟨exec_h2fIeee s, exec_h2fAlt s, exec_of_isNarrowing .f2hIeee s (.inl rfl),
    exec_of_isNarrowing .f2hAlt s (.inr rfl)⟩

end Sys2Proof.Machine
end
